-- ==== Sys2Proof/Word.lean ====
section
/-! DEFINITION. The word types of the engine and the channel sets it interleaves. -/

namespace Sys2Proof

/-- One location of memory, `20_memory.md` R59. -/
abbrev Byte := BitVec 8

/-- A 16-bit slot holding one 2-byte sample, `00_scope.md` R13. -/
abbrev Slot := BitVec 16

/-- A byte address (`AW = 64`, `00_scope.md` R7); also the cell of a 64-bit descriptor register. -/
abbrev Addr := BitVec 64

/-- A command word, `30_encoding.md` R80. -/
abbrev CmdWord := BitVec 32

/-- The channel sets, named by their planes in tuple order (`10_state.md` R22): Gray; Gray, Alpha; R, G, B;
R, G, B, Alpha. -/
inductive Channels where
  | gray
  | grayAlpha
  | rgb
  | rgba
  deriving DecidableEq, Repr

end Sys2Proof
end

