-- ==== Sys2Proof/Syntax.lean ====
section
/-! DEFINITION. The commands: one constructor per row of the opcode table. -/

namespace Sys2Proof

/-- The legal commands (`30_encoding.md` R91, R92). `swap` is the field `SWAP`, `bits` the field `BITS`, `ch` the channel
set that the field `CH` selects. The 8-bit rows carry `swap` because their words leave it free (R84). -/
inductive Instr where
  /-- 1-channel 8-bit row copy, R131. -/
  | row1x8 (swap : Bool)
  /-- 2-channel 8-bit interleave, R132. -/
  | row2x8 (swap : Bool)
  /-- 3-channel 8-bit interleave, R133. -/
  | row3x8 (swap : Bool)
  /-- 4-channel 8-bit interleave, R134. -/
  | row4x8 (swap : Bool)
  /-- 1-channel 16-bit normalize, R151. -/
  | row1x16 (bits : Nat) (swap : Bool)
  /-- 2-channel 16-bit normalize and interleave, R152. -/
  | row2x16 (bits : Nat) (swap : Bool)
  /-- 3-channel 16-bit normalize and interleave, R153. -/
  | row3x16 (bits : Nat) (swap : Bool)
  /-- 4-channel 16-bit normalize and interleave, R154. -/
  | row4x16 (bits : Nat) (swap : Bool)
  /-- The Plane Transform Driver over planes of sample width 1, R170. -/
  | xform8 (ch : Channels) (swap : Bool)
  /-- The Plane Transform Driver over planes of sample width 2, R170. -/
  | xform16 (ch : Channels) (bits : Nat) (swap : Bool)
  deriving DecidableEq, Repr

end Sys2Proof
end

