-- ==== Sys2Proof/WellFormed.lean ====
section
/-! DEFINITION. Which commands have a command word: the bit depth is in range. -/

namespace Sys2Proof

/-- The bit depths a 16-bit command may carry, `30_encoding.md` R88 (c). -/
def depthInRange (bits : Nat) : Bool := decide (8 ≤ bits ∧ bits ≤ 16)

/-- A command has a word exactly when its bit depth is one that R88 admits. -/
def Instr.wf : Instr → Bool
  | .row1x8 _ => true
  | .row2x8 _ => true
  | .row3x8 _ => true
  | .row4x8 _ => true
  | .row1x16 bits _ => depthInRange bits
  | .row2x16 bits _ => depthInRange bits
  | .row3x16 bits _ => depthInRange bits
  | .row4x16 bits _ => depthInRange bits
  | .xform8 _ _ => true
  | .xform16 _ bits _ => depthInRange bits

end Sys2Proof
end

