-- ==== Sys2Proof/Decode.lean ====
section
/-! DEFINITION. The decoder of command words, the encoder written from the same format, and the opcode table's rows. -/

namespace Sys2Proof

/-- Field `CH`, bits 1:0 (`30_encoding.md` R80). -/
def fieldCH (w : CmdWord) : BitVec 2 := w.extractLsb' 0 2

/-- Field `W`, bit 2. -/
def fieldW (w : CmdWord) : Bool := w.getLsbD 2

/-- Field `DRV`, bit 3. -/
def fieldDRV (w : CmdWord) : Bool := w.getLsbD 3

/-- Field `BITS`, bits 8:4, the number itself (R83). -/
def fieldBITS (w : CmdWord) : Nat := (w.extractLsb' 4 5).toNat

/-- Field `SWAP`, bit 9. -/
def fieldSWAP (w : CmdWord) : Bool := w.getLsbD 9

/-- The reserved field, bits 31:10. -/
def fieldReserved (w : CmdWord) : BitVec 22 := w.extractLsb' 10 22

/-- The channel count, `ch = CH + 1` (R81). -/
def Channels.count : Channels → Nat
  | .gray => 1
  | .grayAlpha => 2
  | .rgb => 3
  | .rgba => 4

/-- The channel set a `CH` field selects (R81, `10_state.md` R22). -/
def Channels.ofField (c : BitVec 2) : Channels :=
  match c.toNat with
  | 0 => .gray
  | 1 => .grayAlpha
  | 2 => .rgb
  | _ => .rgba

/-- The `CH` field of a channel set. -/
def Channels.field : Channels → BitVec 2
  | .gray => 0
  | .grayAlpha => 1
  | .rgb => 2
  | .rgba => 3

/-- The 8-bit ROW command of a channel set (R91, `OPC` 0x0 to 0x3). -/
def Instr.row8 (ch : Channels) (swap : Bool) : Instr :=
  match ch with
  | .gray => .row1x8 swap
  | .grayAlpha => .row2x8 swap
  | .rgb => .row3x8 swap
  | .rgba => .row4x8 swap

/-- The 16-bit ROW command of a channel set (R91, `OPC` 0x4 to 0x7). -/
def Instr.row16 (ch : Channels) (bits : Nat) (swap : Bool) : Instr :=
  match ch with
  | .gray => .row1x16 bits swap
  | .grayAlpha => .row2x16 bits swap
  | .rgb => .row3x16 bits swap
  | .rgba => .row4x16 bits swap

/-- Why a word is illegal, by the clause of R88 it fails. -/
inductive DecodeError where
  /-- (a): a reserved bit is set. -/
  | reservedBits
  /-- (b): `W = 0` with `BITS` other than 8. -/
  | depthNotEight
  /-- (c): `W = 1` with `BITS` outside 8 to 16. -/
  | depthOutOfRange
  deriving DecidableEq, Repr

/-- The decoder R91 describes: the reserved bits, then `BITS` against `W`, then dispatch on the opcode. Total: every word
is a command or is rejected by the clause it fails. -/
def decode (w : CmdWord) : Except DecodeError Instr :=
  if fieldReserved w ≠ 0#22 then .error .reservedBits
  else if fieldW w then
    if depthInRange (fieldBITS w) then
      .ok (if fieldDRV w then .xform16 (.ofField (fieldCH w)) (fieldBITS w) (fieldSWAP w)
        else .row16 (.ofField (fieldCH w)) (fieldBITS w) (fieldSWAP w))
    else .error .depthOutOfRange
  else if fieldBITS w = 8 then
    .ok (if fieldDRV w then .xform8 (.ofField (fieldCH w)) (fieldSWAP w)
      else .row8 (.ofField (fieldCH w)) (fieldSWAP w))
  else .error .depthNotEight

/-- A word with the given fields of format `C`, reserved bits 0 (R80). -/
def packFields (ch : BitVec 2) (w drv : Bool) (bits : BitVec 5) (swap : Bool) : CmdWord :=
  (0 : BitVec 22) ++ BitVec.ofBool swap ++ bits ++ BitVec.ofBool drv ++ BitVec.ofBool w ++ ch

/-- The word of a command (R80, R91). -/
def encode : Instr → CmdWord
  | .row1x8 swap => packFields 0 false false 8 swap
  | .row2x8 swap => packFields 1 false false 8 swap
  | .row3x8 swap => packFields 2 false false 8 swap
  | .row4x8 swap => packFields 3 false false 8 swap
  | .row1x16 bits swap => packFields 0 true false (BitVec.ofNat 5 bits) swap
  | .row2x16 bits swap => packFields 1 true false (BitVec.ofNat 5 bits) swap
  | .row3x16 bits swap => packFields 2 true false (BitVec.ofNat 5 bits) swap
  | .row4x16 bits swap => packFields 3 true false (BitVec.ofNat 5 bits) swap
  | .xform8 ch swap => packFields ch.field false true 8 swap
  | .xform16 ch bits swap => packFields ch.field true true (BitVec.ofNat 5 bits) swap

/-- The decoder on a word numbered as `opcode_table.json` numbers it. A command is one 32-bit word (R90), so bits from 32
on must be 0. -/
def decodeTableWord (nbits w : Nat) : Option Instr :=
  if w % 2 ^ nbits < 2 ^ 32 then (decode (BitVec.ofNat 32 (w % 2 ^ nbits))).toOption else none

/-- The mnemonic of a command (R91). -/
def Instr.mnemonic : Instr → String
  | .row1x8 _ => "ROW1X8"
  | .row2x8 _ => "ROW2X8"
  | .row3x8 _ => "ROW3X8"
  | .row4x8 _ => "ROW4X8"
  | .row1x16 _ _ => "ROW1X16"
  | .row2x16 _ _ => "ROW2X16"
  | .row3x16 _ _ => "ROW3X16"
  | .row4x16 _ _ => "ROW4X16"
  | .xform8 _ _ => "XFORM"
  | .xform16 _ _ _ => "XFORM"

/-- One row of the `match`/`mask` form of the opcode map (R92). `depthFree` is the row's extra constraint
`8 <= cmd[8:4] <= 16`. -/
structure OpcodeRow where
  mnemonic : String
  mask : CmdWord
  value : CmdWord
  depthFree : Bool
  deriving DecidableEq, Repr

/-- R92: a word selects a row when `cmd & mask = match` and the extra constraint holds. -/
def OpcodeRow.selects (r : OpcodeRow) (w : CmdWord) : Bool :=
  w &&& r.mask == r.value && (!r.depthFree || depthInRange (fieldBITS w))

/-- The ten rows of R92, in its order. -/
def opcodeRows : List OpcodeRow :=
  [ ⟨"ROW1X8", 0xFFFFFDFF, 0x00000080, false⟩,
    ⟨"ROW2X8", 0xFFFFFDFF, 0x00000081, false⟩,
    ⟨"ROW3X8", 0xFFFFFDFF, 0x00000082, false⟩,
    ⟨"ROW4X8", 0xFFFFFDFF, 0x00000083, false⟩,
    ⟨"ROW1X16", 0xFFFFFC0F, 0x00000004, true⟩,
    ⟨"ROW2X16", 0xFFFFFC0F, 0x00000005, true⟩,
    ⟨"ROW3X16", 0xFFFFFC0F, 0x00000006, true⟩,
    ⟨"ROW4X16", 0xFFFFFC0F, 0x00000007, true⟩,
    ⟨"XFORM", 0xFFFFFDFC, 0x00000088, false⟩,
    ⟨"XFORM", 0xFFFFFC0C, 0x0000000C, true⟩ ]

end Sys2Proof
end

