-- ==== Sys2Proof/Config.lean ====
section
/-! DEFINITION. What a platform fixes (the OPEN parameters of `00_scope.md` R7) and the values the spec leaves free. -/

namespace Sys2Proof

/-- `len` consecutive byte addresses from `base`, continuing at address 0 past the top (`20_memory.md` R59). -/
structure AddrRange where
  base : Addr
  len : Nat
  deriving DecidableEq, Repr

/-- The OPEN parameters of one engine (`00_scope.md` R7). State carries a `Platform` that no step changes, so that what
is proved of every state is proved of every platform (log 3). -/
structure Platform where
  /-- `VW = 2 ^ (vwLog + 1)`: a power of two, at least 2 (`00_scope.md` R7, D7). DEDUCED (log 4): `VW` is at most
  `2 ^ 35`, which is what makes the bound of `10_state.md` R31 true. -/
  vwLog : Fin 35
  /-- `MemOK(a)` is false exactly on these ranges (`20_memory.md` R61, log 5). -/
  refused : List AddrRange
  /-- `some n`: the register file is memory-mapped at `RBASE = 8 * n`, 8-byte aligned (D27); `none`: it is reached by
  another path (`20_memory.md` R62, log 6). -/
  rbaseCell : Option (BitVec 61)
  deriving DecidableEq, Repr

namespace Config

/-- FREE VALUE (log 7): the byte that draw number `n` gives for `unspecified(1)` (`00_scope.md` R10; U1, U2, U8, U9). -/
opaque freeByte : Nat → Byte

/-- FREE VALUE (log 8): what a byte that nothing has written holds (U6). It is the same at every read, since memory is
ordinary (`20_memory.md` R58). -/
opaque powerOnByte : Addr → Byte

/-- The platform `State.reset` names. DESIGN CHOICE (log 3): `VW = 16`, the width of the test vectors; `MemOK` true
everywhere, the spec's default; no memory mapping. No statement rests on it. -/
def defaultPlatform : Platform where
  vwLog := 3
  refused := []
  rbaseCell := none

end Config
end Sys2Proof
end

