-- ==== Sys2Proof/Machine/State.lean ====
section
/-! DEFINITION. The engine's state as plain data, the reasons a step can stop, and the state after reset. -/

namespace Sys2Proof.Machine

/-- Memory as the bytes something has written, by rising address (a byte nothing has written is not listed). -/
abbrev Memory := List Host.Cell

/-- The names of the 16 descriptor registers, in index order (`10_state.md` R21). -/
inductive Reg where
  | src0 | src1 | src2 | src3
  | sstride0 | sstride1 | sstride2 | sstride3
  | dst | dcap | width | height | cmd | status | dstride | dbytes
  deriving DecidableEq, Repr

/-- The 15 descriptor registers that hold a value (`10_state.md` R20, R21); `CMD` holds none (R28). -/
structure Regs where
  src0 : BitVec 64
  src1 : BitVec 64
  src2 : BitVec 64
  src3 : BitVec 64
  sstride0 : BitVec 64
  sstride1 : BitVec 64
  sstride2 : BitVec 64
  sstride3 : BitVec 64
  dst : BitVec 64
  dcap : BitVec 64
  width : BitVec 32
  height : BitVec 32
  status : BitVec 32
  dstride : BitVec 64
  dbytes : BitVec 64
  deriving DecidableEq, Repr

/-- What the outside world can do to the engine: one step consumes one of these. -/
inductive HostOp where
  /-- `RegWrite(i, v)`, `44_register_access.md` R190; a write to `CMD` runs a command. -/
  | regWrite (r : Reg) (v : BitVec 64)
  /-- `RegRead(i)`, R191. -/
  | regRead (r : Reg)
  /-- A store of `size` bytes at `a` meant for the memory-mapped register file (`20_memory.md` R62, R193). -/
  | mmioWrite (a : Addr) (size : Nat) (v : BitVec 64)
  /-- A load of `size` bytes at `a` meant for the memory-mapped register file. -/
  | mmioRead (a : Addr) (size : Nat)
  /-- The host, or any other agent between commands, stores one byte of shared memory (`20_memory.md` R67, R243). -/
  | memWrite (a : Addr) (b : Byte)
  /-- The host loads one byte of shared memory. -/
  | memRead (a : Addr)
  /-- Reset is asserted between two host accesses (`70_reset_and_hazards.md` R230). -/
  | reset
  /-- The host writes `cmd` to `CMD` and reset arrives while that command is running (R230). -/
  | resetDuring (cmd : CmdWord)
  deriving DecidableEq, Repr

/-- The state of one engine and the memory it shares with the host (`10_state.md` R20). `host`, `readData`, `draws` and
`platform` are the MODEL's own fields (logs 1, 12, 7, 3). -/
structure State where
  regs : Regs
  mem : Memory
  /-- The host accesses not yet performed, next first. -/
  host : List HostOp
  /-- The value the last host read returned. -/
  readData : BitVec 64
  /-- The number of free bytes drawn so far. -/
  draws : Nat
  /-- The OPEN parameters; no step changes them. -/
  platform : Platform
  deriving DecidableEq, Repr

/-- The engine never stops: each of its errors is a next state with `STATUS` written (`60_exceptions.md` R200, R204). So
there is no fault. -/
inductive Fault where
  deriving DecidableEq, Repr

/-- Why the model gives a host access no meaning. -/
inductive Refusal where
  /-- An arm of `exec` that has no meaning yet. Safe. No arm answers it. -/
  | notModelled (mnemonic : String)
  /-- Raised by a command whose read set or write set touches the engine's own register window, whose result the spec
  leaves unspecified and asks a model to refuse (`20_memory.md` R62, U5). Safe (log 10). -/
  | registerWindowTouched
  /-- Raised by a host access to, or meant for, the register window that is not a whole aligned 64-bit access to one of
  the 16 cells, to which the spec gives no meaning (`44_register_access.md` R193, U7). Safe (log 11). -/
  | undefinedRegisterAccess
  deriving DecidableEq, Repr

/-- The registers after reset, `10_state.md` R40: all zero. -/
def Regs.reset : Regs where
  src0 := 0
  src1 := 0
  src2 := 0
  src3 := 0
  sstride0 := 0
  sstride1 := 0
  sstride2 := 0
  sstride3 := 0
  dst := 0
  dcap := 0
  width := 0
  height := 0
  status := 0
  dstride := 0
  dbytes := 0

/-- The machine right after reset: the registers of R40, no byte of memory written, no host access pending. -/
def State.reset : State where
  regs := Regs.reset
  mem := []
  host := []
  readData := 0
  draws := 0
  platform := Config.defaultPlatform

end Sys2Proof.Machine
end

