-- ==== Sys2Proof/Machine/Flags.lean ====
section
/-! DEFINITION. The `STATUS` register: the only flags of the engine (`10_state.md` R29, R36). -/

namespace Sys2Proof.Machine

/-- The four ways a command ends (`60_exceptions.md` R200). Codes 4 to 15 are never produced (U13). -/
inductive Ending where
  | none
  | illegalCommand
  | allocationFailure
  | busFault
  deriving DecidableEq, Repr

/-- The value of `STATUS.ERR` (R200). -/
def Ending.code : Ending → BitVec 4
  | .none => 0
  | .illegalCommand => 1
  | .allocationFailure => 2
  | .busFault => 3

/-- The word every command writes when it ends: `zext_32(ERR ++ 0b000 ++ 0b1)` (R29, R204). -/
def statusWord (e : Ending) : BitVec 32 := (e.code ++ (0 : BitVec 3) ++ (1 : BitVec 1)).setWidth 32

/-- `STATUS.DONE`, bit 0. -/
def statusDone (w : BitVec 32) : Bool := w.getLsbD 0

/-- `STATUS.ERR`, bits 7:4. -/
def statusErr (w : BitVec 32) : BitVec 4 := w.extractLsb' 4 4

/-- The reserved bits of `STATUS`, 31:8 and 3:1, which read as 0. -/
def statusReserved (w : BitVec 32) : BitVec 27 := w.extractLsb' 8 24 ++ w.extractLsb' 1 3

end Sys2Proof.Machine
end

