-- ==== Sys2Proof/Machine/Ops.lean ====
section
/-! DEFINITION. Named operations over memory, address ranges and registers, and the raising of an error. -/

namespace Sys2Proof

/-- How far `a` lies after `base`, modulo `2 ^ 64` (`20_memory.md` R59). -/
def addrOffset (base a : Addr) : Nat := (a - base).toNat

/-- The address `a` lies in the range. -/
def AddrRange.contains (r : AddrRange) (a : Addr) : Bool := decide (addrOffset r.base a < r.len)

/-- The two ranges share an address. -/
def AddrRange.meets (r q : AddrRange) : Bool :=
  decide (0 < r.len ∧ 0 < q.len ∧ (addrOffset r.base q.base < r.len ∨ addrOffset q.base r.base < q.len))

/-- `VW`, the vector width in bytes (`00_scope.md` R7). -/
def Platform.vw (p : Platform) : Nat := 2 ^ (p.vwLog.val + 1)

/-- `MemOK(a)`: the platform accepts an engine access to byte `a` (`20_memory.md` R61). -/
def Platform.memOK (p : Platform) (a : Addr) : Bool := !p.refused.any (·.contains a)

/-- `RBASE`, where the platform maps the register file, if it does (`20_memory.md` R62). -/
def Platform.rbase (p : Platform) : Option Addr := p.rbaseCell.map fun n => n ++ (0 : BitVec 3)

/-- The register window `[RBASE, RBASE + 128)` (`20_memory.md` R62). -/
def Platform.window (p : Platform) : Option AddrRange := p.rbase.map fun b => ⟨b, 128⟩

/-- The address lies in the register window. -/
def Platform.inWindow (p : Platform) (a : Addr) : Bool := p.window.any (·.contains a)

namespace Machine

/-- `roundUp(a, m)`, the least multiple of `m` that is at least `a` (`00_scope.md` R10). -/
def roundUp (a m : Nat) : Nat := if a = 0 then 0 else (a + m - 1) / m * m

/-- What has been written at an address, if anything has. -/
def Memory.get? : Memory → Nat → Option Byte
  | [], _ => none
  | (x, y) :: m, a => if x = a then some y else Memory.get? m a

/-- Store a byte, keeping the addresses rising. -/
def Memory.write : Memory → Nat → Byte → Memory
  | [], a, b => [(a, b)]
  | (x, y) :: m, a, b =>
    if a < x then (a, b) :: (x, y) :: m
    else if a = x then (a, b) :: m
    else (x, y) :: Memory.write m a b

/-- The canonical form: addresses strictly rising, all of them in the address space (R59). No entry can equal what an
unlisted address holds, since that is no written byte at all (log 8). -/
abbrev Memory.wf (m : Memory) : Prop :=
  m.Pairwise (fun c e => c.1 < e.1) ∧ ∀ c ∈ m, c.1 < 2 ^ 64

/-- Store `f n` at `d + n` (modulo `2 ^ 64`) for each `n < len` for which `f` gives a byte. -/
def Memory.fill (m : Memory) (d : Addr) : Nat → (Nat → Option Byte) → Memory
  | 0, _ => m
  | n + 1, f =>
    match f n with
    | some b => Memory.write (Memory.fill m d n f) (d + BitVec.ofNat 64 n).toNat b
    | none => Memory.fill m d n f

/-- `MemRead(a, 1)`: the last byte written at `a` (`20_memory.md` R58), or the free value of U6. -/
def State.byteAt (s : State) (a : Addr) : Byte :=
  (Memory.get? s.mem a.toNat).getD (Config.powerOnByte a)

/-- `MemRead(a, 2)`: a little-endian slot (`20_memory.md` R50). -/
def State.slotAt (s : State) (a : Addr) : Slot := s.byteAt (a + 1) ++ s.byteAt a

/-- `MemWrite(a, 1, b)`. -/
def State.storeByte (s : State) (a : Addr) (b : Byte) : State :=
  { s with mem := Memory.write s.mem a.toNat b }

/-- Write `STATUS` whole, as every command does when it ends (`10_state.md` R29). -/
def Regs.endWith (r : Regs) (e : Ending) : Regs := { r with status := statusWord e }

/-- `raise E` (`60_exceptions.md` R204): the command ends, `STATUS` records the error, no other register changes and
control goes nowhere. There is no return from an error (R210). -/
def raise (e : Ending) (s : State) : State := { s with regs := s.regs.endWith e }

end Machine
end Sys2Proof
end

