-- ==== Sys2Proof/Machine/Operands.lean ====
section
/-! DEFINITION. What a command reads: its parameters, its planes, its sizes and its access sets. -/

namespace Sys2Proof.Machine

/-- The parameters a command word carries (`30_encoding.md` R80 to R84): channel set, `W`, `BITS`, `SWAP`. -/
structure Params where
  ch : Channels
  wide : Bool
  bits : Nat
  swap : Bool
  deriving DecidableEq, Repr

/-- The sample width in bytes (R82). -/
def Params.sw (p : Params) : Nat := if p.wide then 2 else 1

/-- The depth is one R88 admits for the sample width. -/
def Params.legal (p : Params) : Bool := if p.wide then depthInRange p.bits else decide (p.bits = 8)

/-- The data bytes of one destination row, `WIDTH * sw * ch`, on natural numbers (`00_scope.md` R11, R171). -/
def Params.rowBytes (p : Params) (width : Nat) : Nat := width * p.sw * p.ch.count

/-- `SRCc` (`10_state.md` R22). -/
def Regs.src (r : Regs) (c : Nat) : Addr :=
  match c with
  | 0 => r.src0
  | 1 => r.src1
  | 2 => r.src2
  | _ => r.src3

/-- `SSTRIDEc` (`10_state.md` R23). -/
def Regs.sstride (r : Regs) (c : Nat) : Addr :=
  match c with
  | 0 => r.sstride0
  | 1 => r.sstride1
  | 2 => r.sstride2
  | _ => r.sstride3

/-- The work of one legal command: `height` rows of `width` pixels, read from `src row channel` and written `stride` bytes
apart from `dst`. -/
structure Job where
  par : Params
  src : Nat → Nat → Addr
  dst : Addr
  width : Nat
  height : Nat
  stride : Nat

/-- The row a ROW command transforms (`41_row_kernels_8bit.md` R130, `42_row_kernels_16bit.md` R150): it ignores
`SSTRIDEc`, `DCAP` and `HEIGHT`, and its one row is padded to `VW` (`20_memory.md` R55). -/
def rowJob (p : Params) (s : State) : Job where
  par := p
  src := fun _ c => s.regs.src c
  dst := s.regs.dst
  width := s.regs.width.toNat
  height := 1
  stride := roundUp (p.rowBytes s.regs.width.toNat) s.platform.vw

/-- The rows XFORM transforms (`43_plane_driver.md` R170 steps 3 and 5, R174). -/
def xformJob (p : Params) (s : State) : Job where
  par := p
  src := fun row c => s.regs.src c + BitVec.ofNat 64 row * s.regs.sstride c
  dst := s.regs.dst
  width := s.regs.width.toNat
  height := s.regs.height.toNat
  stride := roundUp (p.rowBytes s.regs.width.toNat) s.platform.vw

/-- The bytes of the destination, `stride * height`, on natural numbers (`43_plane_driver.md` R171). -/
def Job.total (j : Job) : Nat := j.stride * j.height

/-- The write set, pad bytes included (`20_memory.md` R55, `43_plane_driver.md` R176). -/
def Job.writeRange (j : Job) : AddrRange := ⟨j.dst, j.total⟩

/-- The read set, one range for each row of each plane (`20_memory.md` R54, `43_plane_driver.md` R176). -/
def Job.readRanges (j : Job) : List AddrRange :=
  (List.range j.height).flatMap fun row =>
    (List.range j.par.ch.count).map fun c => ⟨j.src row c, j.width * j.par.sw⟩

/-- The address is in the read set. -/
def Job.reads (j : Job) (a : Addr) : Bool := j.readRanges.any (·.contains a)

/-- The read set or the write set shares an address with the range. -/
def Job.touches (j : Job) (r : AddrRange) : Bool := r.meets j.writeRange || j.readRanges.any r.meets

/-- The access sets touch the engine's own register window (`20_memory.md` R62, U5). -/
def Job.touchesWindow (j : Job) (p : Platform) : Bool := p.window.any j.touches

/-- Some byte of the access sets has `MemOK` false (`60_exceptions.md` R203). -/
def Job.refused (j : Job) (p : Platform) : Bool := p.refused.any j.touches

end Sys2Proof.Machine
end

