-- ==== Sys2Proof/Machine/Normalizer.lean ====
section
/-! DEFINITION. The Bit-Depth Normalizer (`40_normalizer.md`), a function on one 16-bit slot. -/

namespace Sys2Proof.Machine

/-- The shift pair `(shl, shr)` (R111). -/
def shiftPair (bits : Nat) (swap : Bool) : Nat × Nat :=
  if swap then (24 - bits, bits - 8) else (16 - bits, 2 * bits - 16)

/-- `NORM(bits, swap, v) = (v << shl) | (v >> shr)` kept to 16 bits (R112). The shifts are logical and a shift by 16
gives 0; no slot is masked or tested (R113). -/
def norm (bits : Nat) (swap : Bool) (v : Slot) : Slot :=
  (v <<< (shiftPair bits swap).1) ||| (v >>> (shiftPair bits swap).2)

/-- `bswap16`, the two bytes exchanged (R117). -/
def bswap16 (v : Slot) : Slot := (v <<< 8) ||| (v >>> 8)

/-- `rotr16`, a rotation of the slot to the right (R117). -/
def rotr16 (v : Slot) (n : Nat) : Slot := if n = 0 then v else (v >>> n) ||| (v <<< (16 - n))

/-- `rotl16`, its inverse (`42_row_kernels_16bit.md` R157). -/
def rotl16 (v : Slot) (n : Nat) : Slot := if n = 0 then v else (v <<< n) ||| (v >>> (16 - n))

end Sys2Proof.Machine
end

