-- ==== Sys2Proof/Machine/RowKernels.lean ====
section
/-! DEFINITION. What a command stores in its write set, and the shared body of the ROW commands and of XFORM. -/

namespace Sys2Proof.Machine

/-- The sample of channel `c`, pixel `k`, row `row` of 1-byte planes (`41_row_kernels_8bit.md` R135). -/
def Job.sample8 (j : Job) (s : State) (row k c : Nat) : Byte := s.byteAt (j.src row c + BitVec.ofNat 64 k)

/-- The normalized sample of channel `c`, pixel `k`, row `row` of 2-byte planes (`42_row_kernels_16bit.md` R155). -/
def Job.sample16 (j : Job) (s : State) (row k c : Nat) : Slot :=
  norm j.par.bits j.par.swap (s.slotAt (j.src row c + BitVec.ofNat 64 (2 * k)))

/-- Data byte `o` of row `row`, `o < rowBytes`. With 1-byte samples it is the sample of channel `o mod ch` of pixel
`o div ch` (R135). With 2-byte samples slot `q` is the sample of channel `q mod ch` of pixel `q div ch`, and occupies
bytes `2q`, bits 7:0, and `2q + 1`, bits 15:8 (R155, `20_memory.md` R50). -/
def Job.dataByte (j : Job) (s : State) (row o : Nat) : Byte :=
  if j.par.wide then
    (j.sample16 s row (o / 2 / j.par.ch.count) (o / 2 % j.par.ch.count)).extractLsb' (8 * (o % 2)) 8
  else j.sample8 s row (o / j.par.ch.count) (o % j.par.ch.count)

/-- The source bytes that data byte `o` of row `row` is computed from. -/
def Job.sourceRange (j : Job) (row o : Nat) : AddrRange :=
  if j.par.wide then
    ⟨j.src row (o / 2 % j.par.ch.count) + BitVec.ofNat 64 (2 * (o / 2 / j.par.ch.count)), 2⟩
  else ⟨j.src row (o % j.par.ch.count) + BitVec.ofNat 64 (o / j.par.ch.count), 1⟩

/-- Byte `n` of the write set gets a value the rules determine: it is a data byte (R135, R155), and where the write set
overlaps the read set (`70_reset_and_hazards.md` R238) it depends on no source byte in the write set and is itself no
source byte (the draw of U2, log 9). -/
def Job.determined (j : Job) (n : Nat) : Bool :=
  decide (n % j.stride < j.par.rowBytes j.width)
    && !(j.sourceRange (n / j.stride) (n % j.stride)).meets j.writeRange
    && !j.reads (j.dst + BitVec.ofNat 64 n)

/-- What byte `n` of the write set holds after the command: its value, or a free byte (U1, U2). -/
def Job.outByte (j : Job) (s : State) (n : Nat) : Byte :=
  if j.determined n then j.dataByte s (n / j.stride) (n % j.stride) else Config.freeByte (s.draws + n)

/-- The command completed: every byte of the write set is stored, then `upd` writes the result registers and `STATUS`
becomes `0x01` (`41_row_kernels_8bit.md` R130 step 3, `43_plane_driver.md` R170 step 6). -/
def Job.complete (j : Job) (upd : Regs → Regs) (s : State) : State :=
  { s with
    regs := (upd s.regs).endWith .none
    mem := Memory.fill s.mem j.dst j.total fun n => some (j.outByte s n)
    draws := s.draws + j.total }

/-- Every byte of the write set that the platform accepts becomes a free byte (`60_exceptions.md` R203, U8; log 13). -/
def Job.scribble (j : Job) (s : State) : State :=
  { s with
    mem := Memory.fill s.mem j.dst j.total fun n =>
      if s.platform.memOK (j.dst + BitVec.ofNat 64 n) then some (Config.freeByte (s.draws + n)) else none
    draws := s.draws + j.total }

/-- The memory accesses of a legal command: refused when they touch the register window (U5), BusFault when the platform
refuses one of them (R203), otherwise the command completes. -/
def Job.run (j : Job) (upd : Regs → Regs) (s : State) : Host.Outcome State Fault Refusal :=
  if j.touchesWindow s.platform then .refused .registerWindowTouched
  else if j.refused s.platform then .next (raise .busFault (j.scribble s))
  else .next (j.complete upd s)

/-- The frame the ROW commands share (`41_row_kernels_8bit.md` R130, `42_row_kernels_16bit.md` R150). -/
def rowCommand (p : Params) (s : State) : Host.Outcome State Fault Refusal :=
  if p.legal then (rowJob p s).run id s else .next (raise .illegalCommand s)

/-- The result registers of a successful XFORM (`43_plane_driver.md` R178). -/
def Regs.withOutput (r : Regs) (stride total : Nat) : Regs :=
  { r with dstride := BitVec.ofNat 64 stride, dbytes := BitVec.ofNat 64 total }

/-- XFORM (`43_plane_driver.md` R170): legality, then capacity (R172), then the rows. -/
def xformCommand (p : Params) (s : State) : Host.Outcome State Fault Refusal :=
  if p.legal then
    let j := xformJob p s
    if j.total > s.regs.dcap.toNat then .next (raise .allocationFailure s)
    else j.run (·.withOutput j.stride j.total) s
  else .next (raise .illegalCommand s)

end Sys2Proof.Machine
end

