-- ==== Sys2Proof/Machine/Driver.lean ====
section
/-! DEFINITION. The Plane Transform Driver (`43_plane_driver.md`). -/

namespace Sys2Proof.Machine

/-- `XFORM` over planes of sample width 1, R170. `SWAP` is ignored (`30_encoding.md` R84). -/
def execXform8 (ch : Channels) (swap : Bool) (s : State) : Host.Outcome State Fault Refusal :=
  xformCommand ⟨ch, false, 8, swap⟩ s

/-- `XFORM` over planes of sample width 2, R170. -/
def execXform16 (ch : Channels) (bits : Nat) (swap : Bool) (s : State) : Host.Outcome State Fault Refusal :=
  xformCommand ⟨ch, true, bits, swap⟩ s

end Sys2Proof.Machine
end

