-- ==== Sys2Proof/Machine/Row16.lean ====
section
/-! DEFINITION. The four row operations on 2-byte samples (`42_row_kernels_16bit.md`). -/

namespace Sys2Proof.Machine

/-- `ROW1X16`: 1-channel 16-bit normalize (Gray), R151. -/
def execRow1x16 (bits : Nat) (swap : Bool) (s : State) : Host.Outcome State Fault Refusal :=
  rowCommand ⟨.gray, true, bits, swap⟩ s

/-- `ROW2X16`: 2-channel 16-bit normalize and interleave (Gray, Alpha), R152. -/
def execRow2x16 (bits : Nat) (swap : Bool) (s : State) : Host.Outcome State Fault Refusal :=
  rowCommand ⟨.grayAlpha, true, bits, swap⟩ s

/-- `ROW3X16`: 3-channel 16-bit normalize and interleave (R, G, B), R153. -/
def execRow3x16 (bits : Nat) (swap : Bool) (s : State) : Host.Outcome State Fault Refusal :=
  rowCommand ⟨.rgb, true, bits, swap⟩ s

/-- `ROW4X16`: 4-channel 16-bit normalize and interleave (R, G, B, Alpha), R154. -/
def execRow4x16 (bits : Nat) (swap : Bool) (s : State) : Host.Outcome State Fault Refusal :=
  rowCommand ⟨.rgba, true, bits, swap⟩ s

end Sys2Proof.Machine
end

