-- ==== Sys2Proof/Machine/Row8.lean ====
section
/-! DEFINITION. The four row operations on 1-byte samples (`41_row_kernels_8bit.md`). -/

namespace Sys2Proof.Machine

/-- `ROW1X8`: 1-channel 8-bit row copy, R131. `SWAP` is ignored (`30_encoding.md` R84). -/
def execRow1x8 (swap : Bool) (s : State) : Host.Outcome State Fault Refusal :=
  rowCommand ⟨.gray, false, 8, swap⟩ s

/-- `ROW2X8`: 2-channel 8-bit interleave (Gray, Alpha), R132. `SWAP` is ignored (`30_encoding.md` R84). -/
def execRow2x8 (swap : Bool) (s : State) : Host.Outcome State Fault Refusal :=
  rowCommand ⟨.grayAlpha, false, 8, swap⟩ s

/-- `ROW3X8`: 3-channel 8-bit interleave (R, G, B), R133. `SWAP` is ignored (`30_encoding.md` R84). -/
def execRow3x8 (swap : Bool) (s : State) : Host.Outcome State Fault Refusal :=
  rowCommand ⟨.rgb, false, 8, swap⟩ s

/-- `ROW4X8`: 4-channel 8-bit interleave (R, G, B, Alpha), R134. `SWAP` is ignored (`30_encoding.md` R84). -/
def execRow4x8 (swap : Bool) (s : State) : Host.Outcome State Fault Refusal :=
  rowCommand ⟨.rgba, false, 8, swap⟩ s

end Sys2Proof.Machine
end

