-- ==== Sys2Proof/Machine/Dispatch.lean ====
section
/-! DEFINITION. One arm per command, each a direct call of its meaning. -/

namespace Sys2Proof.Machine

def exec (i : Instr) (s : State) : Host.Outcome State Fault Refusal :=
  match i with
  | .row1x8 swap => Sys2Proof.Machine.execRow1x8 swap s
  | .row2x8 swap => Sys2Proof.Machine.execRow2x8 swap s
  | .row3x8 swap => Sys2Proof.Machine.execRow3x8 swap s
  | .row4x8 swap => Sys2Proof.Machine.execRow4x8 swap s
  | .row1x16 bits swap => Sys2Proof.Machine.execRow1x16 bits swap s
  | .row2x16 bits swap => Sys2Proof.Machine.execRow2x16 bits swap s
  | .row3x16 bits swap => Sys2Proof.Machine.execRow3x16 bits swap s
  | .row4x16 bits swap => Sys2Proof.Machine.execRow4x16 bits swap s
  | .xform8 ch swap => Sys2Proof.Machine.execXform8 ch swap s
  | .xform16 ch bits swap => Sys2Proof.Machine.execXform16 ch bits swap s

end Sys2Proof.Machine
end

