-- ==== Sys2Proof/Machine/HostAccess.lean ====
section
/-! DEFINITION. What the host can do: register accesses, `CMD` writes, shared memory accesses and reset
(`44_register_access.md`, `70_reset_and_hazards.md`). -/

namespace Sys2Proof.Machine

/-- The index of a register (`10_state.md` R21). -/
def Reg.index : Reg → Nat
  | .src0 => 0
  | .src1 => 1
  | .src2 => 2
  | .src3 => 3
  | .sstride0 => 4
  | .sstride1 => 5
  | .sstride2 => 6
  | .sstride3 => 7
  | .dst => 8
  | .dcap => 9
  | .width => 10
  | .height => 11
  | .cmd => 12
  | .status => 13
  | .dstride => 14
  | .dbytes => 15

/-- The registers in index order. -/
def Reg.all : List Reg :=
  [.src0, .src1, .src2, .src3, .sstride0, .sstride1, .sstride2, .sstride3,
    .dst, .dcap, .width, .height, .cmd, .status, .dstride, .dbytes]

/-- The register of an index, if there is one (`44_register_access.md` R193). -/
def Reg.ofIndex (i : Nat) : Option Reg := Reg.all[i]?

/-- `RegRead(i)`'s result (R191): 32-bit registers zero-extended, `CMD` reads 0. -/
def Regs.read (r : Regs) : Reg → BitVec 64
  | .src0 => r.src0
  | .src1 => r.src1
  | .src2 => r.src2
  | .src3 => r.src3
  | .sstride0 => r.sstride0
  | .sstride1 => r.sstride1
  | .sstride2 => r.sstride2
  | .sstride3 => r.sstride3
  | .dst => r.dst
  | .dcap => r.dcap
  | .width => r.width.setWidth 64
  | .height => r.height.setWidth 64
  | .cmd => 0
  | .status => r.status.setWidth 64
  | .dstride => r.dstride
  | .dbytes => r.dbytes

/-- What a host write stores in the registers (R190, `10_state.md` R33, R34): 64-bit registers take all of `v`, `WIDTH` and
`HEIGHT` its low 32 bits, the read-only registers and the port `CMD` nothing. -/
def Regs.write (r : Regs) (i : Reg) (v : BitVec 64) : Regs :=
  match i with
  | .src0 => { r with src0 := v }
  | .src1 => { r with src1 := v }
  | .src2 => { r with src2 := v }
  | .src3 => { r with src3 := v }
  | .sstride0 => { r with sstride0 := v }
  | .sstride1 => { r with sstride1 := v }
  | .sstride2 => { r with sstride2 := v }
  | .sstride3 => { r with sstride3 := v }
  | .dst => { r with dst := v }
  | .dcap => { r with dcap := v }
  | .width => { r with width := v.setWidth 32 }
  | .height => { r with height := v.setWidth 32 }
  | .cmd => r
  | .status => r
  | .dstride => r
  | .dbytes => r

/-- `Execute(cmd)` (R192): an illegal word raises IllegalCommand, a legal one runs to completion. -/
def execute (cmd : CmdWord) (s : State) : Host.Outcome State Fault Refusal :=
  match decode cmd with
  | .ok i => exec i s
  | .error _ => .next (raise .illegalCommand s)

/-- `RegWrite(i, v)` (R190). -/
def regWrite (i : Reg) (v : BitVec 64) (s : State) : Host.Outcome State Fault Refusal :=
  if i = .cmd then execute (v.setWidth 32) s else .next { s with regs := s.regs.write i v }

/-- `RegRead(i)` (R191): the value goes to the host, no register changes. -/
def regRead (i : Reg) (s : State) : State := { s with readData := s.regs.read i }

/-- The register that a `size`-byte access at `a` reaches: the cell `RBASE + 8 * index`, by one naturally aligned 64-bit
access (`20_memory.md` R62, R193). -/
def regAt (p : Platform) (a : Addr) (size : Nat) : Option Reg :=
  match p.rbase with
  | some b => if size = 8 ∧ addrOffset b a % 8 = 0 then Reg.ofIndex (addrOffset b a / 8) else none
  | none => none

/-- A host store meant for the register window; any access but a whole 64-bit one at a cell has no meaning (U7). -/
def mmioWrite (a : Addr) (size : Nat) (v : BitVec 64) (s : State) : Host.Outcome State Fault Refusal :=
  match regAt s.platform a size with
  | some i => regWrite i v s
  | none => .refused .undefinedRegisterAccess

/-- A host load meant for the register window. -/
def mmioRead (a : Addr) (size : Nat) (s : State) : Host.Outcome State Fault Refusal :=
  match regAt s.platform a size with
  | some i => .next (regRead i s)
  | none => .refused .undefinedRegisterAccess

/-- A byte store to shared memory; in the register window it is an access of another size (U7). -/
def memWrite (a : Addr) (b : Byte) (s : State) : Host.Outcome State Fault Refusal :=
  if s.platform.inWindow a then .refused .undefinedRegisterAccess else .next (s.storeByte a b)

/-- A byte load from shared memory, zero-extended. -/
def memRead (a : Addr) (s : State) : Host.Outcome State Fault Refusal :=
  if s.platform.inWindow a then .refused .undefinedRegisterAccess
  else .next { s with readData := (s.byteAt a).setWidth 64 }

/-- The reset input (`70_reset_and_hazards.md` R230): the registers of R40; memory and all that is not the engine's stay
(log 15). -/
def resetInput (s : State) : State := { s with regs := Regs.reset }

/-- The parameters of a command and whether it runs the driver (`30_encoding.md` R85). -/
def commandParams (i : Instr) : Params × Bool :=
  match i with
  | .row1x8 swap => (⟨.gray, false, 8, swap⟩, false)
  | .row2x8 swap => (⟨.grayAlpha, false, 8, swap⟩, false)
  | .row3x8 swap => (⟨.rgb, false, 8, swap⟩, false)
  | .row4x8 swap => (⟨.rgba, false, 8, swap⟩, false)
  | .row1x16 bits swap => (⟨.gray, true, bits, swap⟩, false)
  | .row2x16 bits swap => (⟨.grayAlpha, true, bits, swap⟩, false)
  | .row3x16 bits swap => (⟨.rgb, true, bits, swap⟩, false)
  | .row4x16 bits swap => (⟨.rgba, true, bits, swap⟩, false)
  | .xform8 ch swap => (⟨ch, false, 8, swap⟩, true)
  | .xform16 ch bits swap => (⟨ch, true, bits, swap⟩, true)

/-- The memory work of a word written to `CMD`: none for an illegal word or for an XFORM that fails the capacity check,
which access no memory (`60_exceptions.md` R201, R202). -/
def commandJob (cmd : CmdWord) (s : State) : Option Job :=
  match decode cmd with
  | .error _ => none
  | .ok i =>
    if (commandParams i).2 then
      if (xformJob (commandParams i).1 s).total > s.regs.dcap.toNat then none
      else some (xformJob (commandParams i).1 s)
    else some (rowJob (commandParams i).1 s)

/-- Reset arrives while the command runs (R230, U9): the command is abandoned with its write set unspecified, as after
BusFault, and every register is reset (log 14). -/
def resetDuring (cmd : CmdWord) (s : State) : Host.Outcome State Fault Refusal :=
  match commandJob cmd s with
  | none => .next (resetInput s)
  | some j =>
    if j.touchesWindow s.platform then .refused .registerWindowTouched
    else .next (resetInput (j.scribble s))

/-- One host access. -/
def hostAccess (op : HostOp) (s : State) : Host.Outcome State Fault Refusal :=
  match op with
  | .regWrite i v => regWrite i v s
  | .regRead i => .next (regRead i s)
  | .mmioWrite a size v => mmioWrite a size v s
  | .mmioRead a size => mmioRead a size s
  | .memWrite a b => memWrite a b s
  | .memRead a => memRead a s
  | .reset => .next (resetInput s)
  | .resetDuring cmd => resetDuring cmd s

/-- Perform the next pending host access; with none pending the engine is idle and holds its state
(`60_exceptions.md` R216). -/
def nextAccess (s : State) : Host.Outcome State Fault Refusal :=
  match s.host with
  | [] => .next s
  | op :: rest => hostAccess op { s with host := rest }

end Sys2Proof.Machine
end

