-- ==== Sys2Proof/Machine/Step.lean ====
section
/-! DEFINITION. One step of the machine: the next host access, with the whole command a `CMD` write starts. -/

namespace Sys2Proof.Machine

/-- The engine has no program counter (`10_state.md` R30): what runs next is what the host does next. -/
def step (s : State) : Host.Outcome State Fault Refusal := nextAccess s

/-- The host's next access is a write of this command word to `CMD`, which is the only way a command starts
(`10_state.md` R28, `20_memory.md` R71; log 2). -/
def State.withFetchWord (s : State) (nbits w : Nat) : State :=
  { s with host := .regWrite .cmd (BitVec.ofNat 64 (w % 2 ^ nbits)) :: s.host }

end Sys2Proof.Machine
end

