-- ==== Sys2Proof/Machine/Lanes.lean ====
section
/-! DEFINITION. The lane-level structure of a chunk (`41_row_kernels_8bit.md` R136 to R138, `42_row_kernels_16bit.md`
R156): how a vectorised implementation computes a row. No step uses it, since none of it can be observed
(`00_scope.md` R8); statements say that it gives the bytes of the scalar rule. -/

namespace Sys2Proof.Machine

/-- `zip(X, Y) = [X0, Y0, X1, Y1, …]` (R137). -/
def zipLanes {α : Type} (x y : List α) : List α := (x.zip y).flatMap fun p => [p.1, p.2]

/-- The permutation of one source for 3 channels: `P_c[(3i + c) mod L] = i` (R138). -/
def permTable (lanes c : Nat) : List Nat :=
  (List.range lanes).map fun l => ((List.range lanes).find? fun i => (3 * i + c) % lanes == l).getD 0

/-- A permuted vector, `S[l] = v[P[l]]` (R138). -/
def shuffleLanes {α : Type} [Inhabited α] (table : List Nat) (v : List α) : List α := table.map fun i => v.getD i default

/-- The source that output vector `m` takes at lane `l`: `q = (L*m + l) mod 3` (R138). -/
def blendSelector (lanes m : Nat) : List Nat := (List.range lanes).map fun l => (lanes * m + l) % 3

/-- One output vector: each lane from the source its selector names. -/
def blendLanes {α : Type} [Inhabited α] (selector : List Nat) (x y z : List α) : List α :=
  selector.mapIdx fun l q => (if q = 0 then x else if q = 1 then y else z).getD l default

/-- Shuffle-then-blend of three vectors into the three output vectors, joined (R138). -/
def shuffleBlend {α : Type} [Inhabited α] (lanes : Nat) (x y z : List α) : List α :=
  (List.range 3).flatMap fun m =>
    blendLanes (blendSelector lanes m) (shuffleLanes (permTable lanes 0) x) (shuffleLanes (permTable lanes 1) y)
      (shuffleLanes (permTable lanes 2) z)

/-- One chunk: the vectors of the channels, `v 0` to `v (ch - 1)`, interleaved by the strategy of the channel count: a
copy, one zip, shuffle-then-blend, two zips (R137, R138). -/
def interleaveChunk {α : Type} [Inhabited α] (ch : Channels) (lanes : Nat) (v : Nat → List α) : List α :=
  match ch with
  | .gray => v 0
  | .grayAlpha => zipLanes (v 0) (v 1)
  | .rgb => shuffleBlend lanes (v 0) (v 1) (v 2)
  | .rgba => zipLanes (zipLanes (v 0) (v 2)) (zipLanes (v 1) (v 3))

/-- The scalar loop over `n` pixels from pixel `k`: the lanes of each pixel in channel order. -/
def scalarLanes {α : Type} (ch : Channels) (lane : Nat → Nat → α) (k n : Nat) : List α :=
  (List.range n).flatMap fun x => (List.range ch.count).map fun c => lane (k + x) c

/-- A row of `width` pixels as a vectorised implementation computes it: `width div L` chunks of `L` lanes, then the exact
scalar tail of `width mod L` pixels (R136, R156). `lane k c` is the sample of pixel `k`, channel `c`. -/
def chunkedLanes {α : Type} [Inhabited α] (ch : Channels) (lanes : Nat) (lane : Nat → Nat → α) (width : Nat) : List α :=
  ((List.range (width / lanes)).flatMap fun i =>
    interleaveChunk ch lanes fun c => (List.range lanes).map fun x => lane (lanes * i + x) c)
    ++ scalarLanes ch lane (width / lanes * lanes) (width % lanes)

/-- The bytes of a vector of slots in memory order (`20_memory.md` R50). -/
def slotBytes (v : List Slot) : List Byte := v.flatMap fun x => [x.extractLsb' 0 8, x.extractLsb' 8 8]

/-- The data bytes of a row as a vectorised implementation of width `vw` computes them: chunks of `vw` byte lanes, or of
`vw / 2` slot lanes with `NORM` applied lane by lane (R136, R156). -/
def Job.vectorRow (j : Job) (vw : Nat) (s : State) (row : Nat) : List Byte :=
  if j.par.wide then slotBytes (chunkedLanes j.par.ch (vw / 2) (fun k c => j.sample16 s row k c) j.width)
  else chunkedLanes j.par.ch vw (fun k c => j.sample8 s row k c) j.width

end Sys2Proof.Machine
end

