-- ==== Sys2Proof/Machine/Script.lean ====
section
/-! DEFINITION. The script language of host activity (`30_encoding.md` R95, R96): each line is host accesses. -/

namespace Sys2Proof.Machine

/-- The `w=` argument of a script line. -/
inductive ScriptWidth where
  | w8
  | w16
  deriving DecidableEq, Repr

/-- A line of a script. `bits` is `none` where the line has no `bits=`. -/
inductive ScriptLine where
  /-- `wr REG, value`. -/
  | wr (r : Reg) (v : BitVec 64)
  /-- `rd REG`. -/
  | rd (r : Reg)
  /-- `row<N>x8`, `row<N>x8 swap`. -/
  | row8 (ch : Channels) (swap : Bool)
  /-- `row<N>x16 bits=B`, `row<N>x16 bits=B, swap`. -/
  | row16 (ch : Channels) (bits : Nat) (swap : Bool)
  /-- `xform ch=N, w=W [, bits=B] [, swap]`. -/
  | xform (ch : Channels) (w : ScriptWidth) (bits : Option Nat) (swap : Bool)
  /-- `plane c, addr, stride` (R96). -/
  | plane (c : Fin 4) (addr stride : BitVec 64)
  /-- `dest addr, cap` (R96). -/
  | dest (addr cap : BitVec 64)
  /-- `dims w, h` (R96). -/
  | dims (w h : BitVec 64)
  /-- `transform ch=N, w=W [, bits=B] [, swap]` (R96). -/
  | transform (ch : Channels) (w : ScriptWidth) (bits : Option Nat) (swap : Bool)
  deriving DecidableEq, Repr

/-- `wr CMD, word`. -/
def writeCmd (word : Nat) : HostOp := .regWrite .cmd (BitVec.ofNat 64 word)

/-- `0x200` where the line says `swap` (R95). -/
def swapTerm (swap : Bool) : Nat := if swap then 0x200 else 0

/-- `SRCc` and `SSTRIDEc` (`10_state.md` R21). -/
def planeRegs (c : Fin 4) : Reg × Reg :=
  match c with
  | 0 => (.src0, .sstride0)
  | 1 => (.src1, .sstride1)
  | 2 => (.src2, .sstride2)
  | 3 => (.src3, .sstride3)

/-- The word of an `xform` line (R95): with `w=8` an absent `bits=` means 8 and any other value than 8 is an assembler
error; with `w=16` `bits=` is required. -/
def xformWord (ch : Channels) (w : ScriptWidth) (bits : Option Nat) (swap : Bool) : Option Nat :=
  match w, bits with
  | .w8, none => some (swapTerm swap + 0x088 + (ch.count - 1))
  | .w8, some b => if b = 8 then some (swapTerm swap + 0x088 + (ch.count - 1)) else none
  | .w16, some b => some (swapTerm swap + (b <<< 4) + 0xC + (ch.count - 1))
  | .w16, none => none

/-- The host accesses a line stands for; `none` is an assembler error. -/
def ScriptLine.expand : ScriptLine → Option (List HostOp)
  | .wr r v => some [.regWrite r v]
  | .rd r => some [.regRead r]
  | .row8 ch swap => some [writeCmd (swapTerm swap + 0x080 + (ch.count - 1))]
  | .row16 ch bits swap => some [writeCmd (swapTerm swap + (bits <<< 4) + 4 + (ch.count - 1))]
  | .xform ch w bits swap => (xformWord ch w bits swap).map fun word => [writeCmd word]
  | .plane c addr stride => some [.regWrite (planeRegs c).1 addr, .regWrite (planeRegs c).2 stride]
  | .dest addr cap => some [.regWrite .dst addr, .regWrite .dcap cap]
  | .dims w h => some [.regWrite .width w, .regWrite .height h]
  | .transform ch w bits swap => (xformWord ch w bits swap).map fun word => [writeCmd word]

/-- The host accesses of a script; `none` when a line is an assembler error. -/
def assemble : List ScriptLine → Option (List HostOp)
  | [] => some []
  | l :: rest =>
    match l.expand, assemble rest with
    | some ops, some more => some (ops ++ more)
    | _, _ => none

end Sys2Proof.Machine
end

