-- ==== Sys2Proof/Safety.lean ====
section
/-! DEFINITION. What the caller owes the engine, and the machine's invariant, in the terms the statements use. -/

namespace Sys2Proof.Machine

/-- Byte `k` of row `row` of plane `c`: `SRCc + row * SSTRIDEc + k` modulo `2 ^ 64` (`43_plane_driver.md` R174). Row 0 is
the row a ROW command reads. -/
def State.planeByte (s : State) (row c k : Nat) : Addr :=
  s.regs.src c + BitVec.ofNat 64 row * s.regs.sstride c + BitVec.ofNat 64 k

/-- Byte `n` of the destination, `DST + n` modulo `2 ^ 64`. -/
def State.destByte (s : State) (n : Nat) : Addr := s.regs.dst + BitVec.ofNat 64 n

/-- The bytes of one plane's row that a command reads, `WIDTH * sw` (`20_memory.md` R54). -/
def State.planeRowBytes (s : State) (p : Params) : Nat := s.regs.width.toNat * p.sw

/-- `rowBytes` of a command with parameters `p` (`00_scope.md` R11). -/
def State.rowBytes (s : State) (p : Params) : Nat := s.regs.width.toNat * p.sw * p.ch.count

/-- The padded length of a destination row, `roundUp(rowBytes, VW)`. -/
def State.rowStride (s : State) (p : Params) : Nat := roundUp (s.rowBytes p) s.platform.vw

/-- Every byte of the read set and the write set of `rows` rows has `MemOK` true (`20_memory.md` R61). -/
abbrev State.Accepted (s : State) (p : Params) (rows : Nat) : Prop :=
  (∀ row < rows, ∀ c < p.ch.count, ∀ k < s.planeRowBytes p, s.platform.memOK (s.planeByte row c k) = true) ∧
    ∀ n < s.rowStride p * rows, s.platform.memOK (s.destByte n) = true

/-- No byte of the access sets of `rows` rows is in the register window (`20_memory.md` R62). -/
abbrev State.OffWindow (s : State) (p : Params) (rows : Nat) : Prop :=
  (∀ row < rows, ∀ c < p.ch.count, ∀ k < s.planeRowBytes p, s.platform.inWindow (s.planeByte row c k) = false) ∧
    ∀ n < s.rowStride p * rows, s.platform.inWindow (s.destByte n) = false

/-- The write set and the read set of `rows` rows share no byte (`70_reset_and_hazards.md` R238). -/
abbrev State.NoOverlap (s : State) (p : Params) (rows : Nat) : Prop :=
  ∀ row < rows, ∀ c < p.ch.count, ∀ k < s.planeRowBytes p, ∀ n < s.rowStride p * rows,
    s.planeByte row c k ≠ s.destByte n

/-- The rows a command transforms: `HEIGHT` for XFORM, one for a ROW command. -/
def State.rows (s : State) (i : Instr) : Nat := if (commandParams i).2 then s.regs.height.toNat else 1

/-- The bytes of the command's write set, pad bytes included, on natural numbers (`43_plane_driver.md` R171). -/
def State.total (s : State) (i : Instr) : Nat := s.rowStride (commandParams i).1 * s.rows i

/-- The address is in the command's read set (`20_memory.md` R54, `43_plane_driver.md` R176). -/
def State.InReadSet (s : State) (i : Instr) (a : Addr) : Prop :=
  ∃ row < s.rows i, ∃ c < (commandParams i).1.ch.count, ∃ k < s.planeRowBytes (commandParams i).1,
    a = s.planeByte row c k

/-- The address is in the command's write set, pad bytes included (`20_memory.md` R55, `43_plane_driver.md` R176). -/
def State.InWriteSet (s : State) (i : Instr) (a : Addr) : Prop := ∃ n < s.total i, a = s.destByte n

/-- An XFORM has the capacity it needs (`43_plane_driver.md` R172); a ROW command needs none. -/
abbrev State.HasCapacity (s : State) (i : Instr) : Prop :=
  (commandParams i).2 = true → s.total i ≤ s.regs.dcap.toNat

/-- When a command executes normally: its word is legal, it has the capacity, its accesses are off the register window
and the platform accepts them (`60_exceptions.md` R209). -/
abbrev State.Runnable (s : State) (i : Instr) : Prop :=
  i.wf = true ∧ s.HasCapacity i ∧ s.OffWindow (commandParams i).1 (s.rows i) ∧ s.Accepted (commandParams i).1 (s.rows i)

/-- The registers a host sets to run row `row` of an image by a ROW command (`43_plane_driver.md` R174): each source moved
by `row` of its strides, the destination by `row` of `stride`. -/
def Regs.atRow (r : Regs) (stride row : Nat) : Regs :=
  { r with
    src0 := r.src0 + BitVec.ofNat 64 row * r.sstride0
    src1 := r.src1 + BitVec.ofNat 64 row * r.sstride1
    src2 := r.src2 + BitVec.ofNat 64 row * r.sstride2
    src3 := r.src3 + BitVec.ofNat 64 row * r.sstride3
    dst := r.dst + BitVec.ofNat 64 (stride * row) }

/-- `STATUS` holds its reset value or one of the four words that end a command (`10_state.md` R29). -/
abbrev StatusLegal (w : BitVec 32) : Prop :=
  w = 0 ∨ w = statusWord .none ∨ w = statusWord .illegalCommand ∨ w = statusWord .allocationFailure
    ∨ w = statusWord .busFault

/-- `DSTRIDE` and `DBYTES` describe an image: a stride that is a multiple of `VW` below `2 ^ 36` (`10_state.md` R31), and
a whole number of such rows below `2 ^ 32` (R32). -/
abbrev OutputLegal (r : Regs) (vw : Nat) : Prop :=
  vw ∣ r.dstride.toNat ∧ r.dstride.toNat < 2 ^ 36 ∧ r.dstride.toNat ∣ r.dbytes.toNat ∧
    r.dbytes.toNat ≤ r.dstride.toNat * (2 ^ 32 - 1)

/-- The invariant every step keeps. -/
abbrev State.Inv (s : State) : Prop :=
  Memory.wf s.mem ∧ StatusLegal s.regs.status ∧ OutputLegal s.regs s.platform.vw

end Sys2Proof.Machine
end

