-- ==== Sys2Proof/Certificates/Slice0/Obligations.lean ====
section
/-! DEFINITION. The statements for the provers. -/

open Sys2Proof Sys2Proof.Machine

/-! ### Encoding -/

/-- Decoding the word of a well-formed command gives the command back, for every command and every operand value the
encoding admits. -/
def Obligations.DecodeInvertsEncode : Prop :=
  ∀ i : Instr, i.wf = true → decode (encode i) = .ok i

/-- A word that decodes is the word of the command it decodes to, so each command has one word. -/
def Obligations.EncodeInvertsDecode : Prop :=
  ∀ (w : CmdWord) (i : Instr), decode w = .ok i → i.wf = true ∧ encode i = w

/-- R88: a word is a command exactly when its reserved bits are 0 and `BITS` is 8 (with `W = 0`) or 8 to 16 (with
`W = 1`). -/
def Obligations.LegalWordsAreThoseOfR88 : Prop :=
  ∀ w : CmdWord, (∃ i, decode w = .ok i) ↔
    w.extractLsb' 10 22 = 0 ∧ (w.getLsbD 2 = false → (w.extractLsb' 4 5).toNat = 8) ∧
      (w.getLsbD 2 = true → 8 ≤ (w.extractLsb' 4 5).toNat ∧ (w.extractLsb' 4 5).toNat ≤ 16)

/-- R92: the ten rows of the opcode table select disjoint sets of words and together exactly the legal ones (160 of them),
and the row a word selects carries the mnemonic of the command the word decodes to. -/
def Obligations.OpcodeRowsPartitionLegalWords : Prop :=
  (∀ (w : CmdWord) (i : Instr), decode w = .ok i →
    (opcodeRows.filter fun r => r.selects w).map (·.mnemonic) = [i.mnemonic]) ∧
  (∀ (w : CmdWord) (e : DecodeError), decode w = .error e → (opcodeRows.filter fun r => r.selects w) = []) ∧
  ∃ words : List CmdWord, words.length = 160 ∧ words.Nodup ∧ ∀ w, w ∈ words ↔ ∃ r ∈ opcodeRows, r.selects w = true

/-- R97: the worked encodings of the spec, legal and illegal. -/
def Obligations.WorkedEncodingsDecode : Prop :=
  decode 0x082 = .ok (.row3x8 false) ∧
  decode 0x2A4 = .ok (.row1x16 10 true) ∧
  decode 0x08A = .ok (.xform8 .rgb false) ∧
  decode 0x30F = .ok (.xform16 .rgba 16 true) ∧
  decode 0x0CD = .ok (.xform16 .grayAlpha 12 false) ∧
  decode 0x002 = .error .depthNotEight ∧
  decode 0x074 = .error .depthOutOfRange ∧
  decode 0x114 = .error .depthOutOfRange ∧
  decode 0x484 = .error .reservedBits ∧
  decode 0x092 = .error .depthNotEight

/-- R84: `SWAP` has no effect on the 8-bit commands. That unspecified bytes agree too is the MODEL'S CHOICE (log 7): both runs
draw the same free bytes. -/
def Obligations.SwapIsIgnoredOn8BitSamples : Prop :=
  ∀ (ch : Channels) (s : State),
    exec (.row8 ch true) s = exec (.row8 ch false) s ∧ exec (.xform8 ch true) s = exec (.xform8 ch false) s

/-! ### The normalizer -/

/-- R111: the shift pair, with both amounts between 0 and 16. -/
def Obligations.ShiftPairOfEachDepth : Prop :=
  ∀ bits, 8 ≤ bits → bits ≤ 16 →
    shiftPair bits false = (16 - bits, 2 * bits - 16) ∧ shiftPair bits true = (24 - bits, bits - 8) ∧
      (∀ swap, (shiftPair bits swap).1 ≤ 16 ∧ (shiftPair bits swap).2 ≤ 16) ∧ (shiftPair bits false).1 + bits = 16

/-- R112: `NORM` on the value of a slot, in natural numbers. -/
def Obligations.NormIsShiftOrOnNumbers : Prop :=
  ∀ (bits : Nat) (swap : Bool) (v : Slot), 8 ≤ bits → bits ≤ 16 →
    (norm bits swap v).toNat =
      (v.toNat * 2 ^ (if swap then 24 - bits else 16 - bits)) % 2 ^ 16 |||
        v.toNat / 2 ^ (if swap then bits - 8 else 2 * bits - 16)

/-- R116: without swap, a sample in range is put at the top and its top bits are repeated below; the maximum maps to
0xFFFF; the sample can be recovered; 16 bits is the identity and 8 bits duplicates the byte. -/
def Obligations.NormWithoutSwapRepeatsTopBits : Prop :=
  (∀ (bits : Nat) (v : Slot), 8 ≤ bits → bits ≤ 16 → v.toNat < 2 ^ bits →
    (norm bits false v).toNat = v.toNat * 2 ^ (16 - bits) + v.toNat / 2 ^ (2 * bits - 16) ∧
    v.toNat * 2 ^ (16 - bits) < 2 ^ 16 ∧ v.toNat / 2 ^ (2 * bits - 16) < 2 ^ (16 - bits) ∧
    v.toNat * 2 ^ (16 - bits) &&& v.toNat / 2 ^ (2 * bits - 16) = 0 ∧
    norm bits false v >>> (16 - bits) = v) ∧
  (∀ bits, 8 ≤ bits → bits ≤ 16 →
    norm bits false 0 = 0 ∧ norm bits false (BitVec.ofNat 16 (2 ^ bits - 1)) = 0xFFFF) ∧
  (∀ v : Slot, norm 16 false v = v) ∧
  ∀ v : Slot, v.toNat < 256 → (norm 8 false v).toNat = v.toNat * 257

/-- R117: with swap, `NORM` is a rotation of the slot, so a bijection; on a sample in range it is the byte swap of the
sample left-justified, and the sample can be recovered. -/
def Obligations.NormWithSwapRotatesSlot : Prop :=
  (∀ bits, 8 ≤ bits → bits ≤ 16 → (shiftPair bits true).1 + (shiftPair bits true).2 = 16) ∧
  (∀ (bits : Nat) (v : Slot), 8 ≤ bits → bits ≤ 16 → norm bits true v = rotr16 v (bits - 8)) ∧
  (∀ bits, 8 ≤ bits → bits ≤ 16 → Function.Bijective (norm bits true)) ∧
  (∀ (bits : Nat) (v : Slot), 8 ≤ bits → bits ≤ 16 → v.toNat < 2 ^ bits →
    norm bits true v = bswap16 (v <<< (16 - bits)) ∧ bswap16 (norm bits true v) >>> (16 - bits) = v) ∧
  (∀ bits, 8 ≤ bits → bits ≤ 16 → norm bits true 0 = 0) ∧
  (∀ v : Slot, norm 16 true v = bswap16 v) ∧ ∀ v : Slot, norm 8 true v = v

/-- R118: the swap result is the byte swap of the no-swap result for every sample at 16 bits, and not at fewer. -/
def Obligations.SwapIsByteSwapOfNoSwapOnlyAt16 : Prop :=
  ∀ bits, 8 ≤ bits → bits ≤ 16 →
    ((∀ v : Slot, v.toNat < 2 ^ bits → norm bits true v = bswap16 (norm bits false v)) ↔ bits = 16)

/-- R50: a slot stored as its two bytes, the low one at the lower address, reads back as the slot. -/
def Obligations.SlotIsStoredLowByteFirst : Prop :=
  ∀ (s : State) (a : Addr) (v : Slot),
    ((s.storeByte a (v.extractLsb' 0 8)).storeByte (a + 1) (v.extractLsb' 8 8)).slotAt a = v

/-! ### ROW commands -/

/-- R135, for ROW1X8, ROW2X8, ROW3X8 and ROW4X8: where its accesses are off the register window, accepted, and the write
set shares no byte with the read set, the command completes. The byte of pixel `k`, channel `c` is at `DST + k*ch + c` and
is the source sample unchanged, each pad byte is a free byte, and nothing else in memory changes. `STATUS` becomes 0x01 and
no other register changes. -/
def Obligations.Row8InterleavesSamples : Prop :=
  ∀ (s : State) (ch : Channels) (swap : Bool) (p : Params), p = ⟨ch, false, 8, swap⟩ →
    s.OffWindow p 1 → s.Accepted p 1 → s.NoOverlap p 1 →
    ∃ t, exec (.row8 ch swap) s = .next t ∧
      (∀ k < s.regs.width.toNat, ∀ c < ch.count,
        t.byteAt (s.regs.dst + BitVec.ofNat 64 (k * ch.count + c)) = s.byteAt (s.regs.src c + BitVec.ofNat 64 k)) ∧
      (∀ o, s.regs.width.toNat * ch.count ≤ o → o < roundUp (s.regs.width.toNat * ch.count) s.platform.vw →
        t.byteAt (s.regs.dst + BitVec.ofNat 64 o) = Config.freeByte (s.draws + o)) ∧
      (∀ a, (∀ o < roundUp (s.regs.width.toNat * ch.count) s.platform.vw, a ≠ s.regs.dst + BitVec.ofNat 64 o) →
        t.byteAt a = s.byteAt a) ∧
      t.regs = { s.regs with status := 0x01 } ∧
      t.draws = s.draws + roundUp (s.regs.width.toNat * ch.count) s.platform.vw ∧
      t.host = s.host ∧ t.readData = s.readData ∧ t.platform = s.platform

/-- R155, for ROW1X16, ROW2X16, ROW3X16 and ROW4X16: under the same conditions and with a legal depth the command
completes. The slot of pixel `k`, channel `c` is at `DST + 2*(k*ch + c)` and is `NORM` of the source slot, each pad byte is
a free byte, nothing else in memory changes, `STATUS` becomes 0x01 and no other register changes. -/
def Obligations.Row16InterleavesNormalizedSamples : Prop :=
  ∀ (s : State) (ch : Channels) (bits : Nat) (swap : Bool) (p : Params), p = ⟨ch, true, bits, swap⟩ →
    8 ≤ bits → bits ≤ 16 → s.OffWindow p 1 → s.Accepted p 1 → s.NoOverlap p 1 →
    ∃ t, exec (.row16 ch bits swap) s = .next t ∧
      (∀ k < s.regs.width.toNat, ∀ c < ch.count,
        t.slotAt (s.regs.dst + BitVec.ofNat 64 (2 * (k * ch.count + c))) =
          norm bits swap (s.slotAt (s.regs.src c + BitVec.ofNat 64 (2 * k)))) ∧
      (∀ o, 2 * s.regs.width.toNat * ch.count ≤ o → o < roundUp (2 * s.regs.width.toNat * ch.count) s.platform.vw →
        t.byteAt (s.regs.dst + BitVec.ofNat 64 o) = Config.freeByte (s.draws + o)) ∧
      (∀ a, (∀ o < roundUp (2 * s.regs.width.toNat * ch.count) s.platform.vw, a ≠ s.regs.dst + BitVec.ofNat 64 o) →
        t.byteAt a = s.byteAt a) ∧
      t.regs = { s.regs with status := 0x01 } ∧
      t.draws = s.draws + roundUp (2 * s.regs.width.toNat * ch.count) s.platform.vw ∧
      t.host = s.host ∧ t.readData = s.readData ∧ t.platform = s.platform

/-- The frame of every ROW command, with any outcome that is a next state: only `STATUS` among the registers, and no byte
outside the padded destination row at `DST`. -/
def Obligations.RowCommandFrame : Prop :=
  ∀ (i : Instr) (s t : State), (commandParams i).2 = false → exec i s = .next t →
    t.regs = { s.regs with status := t.regs.status } ∧
    (∀ a, (∀ n < roundUp ((commandParams i).1.rowBytes s.regs.width.toNat) s.platform.vw,
      a ≠ s.regs.dst + BitVec.ofNat 64 n) → t.byteAt a = s.byteAt a) ∧
    t.host = s.host ∧ t.readData = s.readData ∧ t.platform = s.platform

/-- With `WIDTH = 0` a ROW command of any width and legal depth completes on every platform and writes nothing but
`STATUS`. -/
def Obligations.ZeroWidthRowWritesOnlyStatus : Prop :=
  ∀ (s : State) (ch : Channels) (bits : Nat) (swap : Bool), 8 ≤ bits → bits ≤ 16 → s.regs.width = 0 →
    exec (.row8 ch swap) s = .next { s with regs := { s.regs with status := 0x01 } } ∧
    exec (.row16 ch bits swap) s = .next { s with regs := { s.regs with status := 0x01 } }

/-- R157: after a 16-bit ROW command every in-range sample can be recovered from the destination, and with swap every
slot. -/
def Obligations.Row16SamplesAreRecoverable : Prop :=
  ∀ (s : State) (ch : Channels) (bits : Nat) (swap : Bool) (p : Params), p = ⟨ch, true, bits, swap⟩ →
    8 ≤ bits → bits ≤ 16 → s.OffWindow p 1 → s.Accepted p 1 → s.NoOverlap p 1 →
    ∃ t, exec (.row16 ch bits swap) s = .next t ∧
      ∀ k < s.regs.width.toNat, ∀ c < ch.count, ∀ v o : Slot,
        v = s.slotAt (s.regs.src c + BitVec.ofNat 64 (2 * k)) →
        o = t.slotAt (s.regs.dst + BitVec.ofNat 64 (2 * (k * ch.count + c))) →
        (v.toNat < 2 ^ bits → v = (if swap then bswap16 o else o) >>> (16 - bits)) ∧
        (swap = true → v = rotl16 o (bits - 8))

/-! ### XFORM -/

/-- R170 on 1-byte samples: with the capacity it needs, and under the conditions of the ROW commands for all its rows, XFORM
completes. Pixel `k`, channel `c` of row `row` is at `DST + row*stride + k*ch + c` and is the byte at
`SRCc + row*SSTRIDEc + k`; nothing outside the `stride*HEIGHT` bytes at `DST` changes; `DSTRIDE`, `DBYTES` and `STATUS` are
written and no other register. -/
def Obligations.Xform8TransformsEveryRow : Prop :=
  ∀ (s : State) (ch : Channels) (swap : Bool) (p : Params) (rows stride : Nat), p = ⟨ch, false, 8, swap⟩ →
    rows = s.regs.height.toNat → stride = roundUp (s.regs.width.toNat * 1 * ch.count) s.platform.vw →
    stride * rows ≤ s.regs.dcap.toNat → s.OffWindow p rows → s.Accepted p rows → s.NoOverlap p rows →
    ∃ t, exec (.xform8 ch swap) s = .next t ∧
      (∀ row < rows, ∀ k < s.regs.width.toNat, ∀ c < ch.count,
        t.byteAt (s.regs.dst + BitVec.ofNat 64 (row * stride + (k * ch.count + c))) =
          s.byteAt (s.regs.src c + BitVec.ofNat 64 row * s.regs.sstride c + BitVec.ofNat 64 k)) ∧
      (∀ row < rows, ∀ o, s.regs.width.toNat * ch.count ≤ o → o < stride →
        t.byteAt (s.regs.dst + BitVec.ofNat 64 (row * stride + o)) = Config.freeByte (s.draws + (row * stride + o))) ∧
      (∀ a, (∀ n < stride * rows, a ≠ s.regs.dst + BitVec.ofNat 64 n) → t.byteAt a = s.byteAt a) ∧
      t.regs = { s.regs with
        status := 0x01, dstride := BitVec.ofNat 64 stride, dbytes := BitVec.ofNat 64 (stride * rows) } ∧
      t.draws = s.draws + stride * rows ∧ t.host = s.host ∧ t.readData = s.readData ∧ t.platform = s.platform

/-- R170 on 2-byte samples: the same with every slot normalized. -/
def Obligations.Xform16TransformsEveryRow : Prop :=
  ∀ (s : State) (ch : Channels) (bits : Nat) (swap : Bool) (p : Params) (rows stride : Nat),
    p = ⟨ch, true, bits, swap⟩ → 8 ≤ bits → bits ≤ 16 →
    rows = s.regs.height.toNat → stride = roundUp (s.regs.width.toNat * 2 * ch.count) s.platform.vw →
    stride * rows ≤ s.regs.dcap.toNat → s.OffWindow p rows → s.Accepted p rows → s.NoOverlap p rows →
    ∃ t, exec (.xform16 ch bits swap) s = .next t ∧
      (∀ row < rows, ∀ k < s.regs.width.toNat, ∀ c < ch.count,
        t.slotAt (s.regs.dst + BitVec.ofNat 64 (row * stride + 2 * (k * ch.count + c))) =
          norm bits swap
            (s.slotAt (s.regs.src c + BitVec.ofNat 64 row * s.regs.sstride c + BitVec.ofNat 64 (2 * k)))) ∧
      (∀ row < rows, ∀ o, s.regs.width.toNat * 2 * ch.count ≤ o → o < stride →
        t.byteAt (s.regs.dst + BitVec.ofNat 64 (row * stride + o)) = Config.freeByte (s.draws + (row * stride + o))) ∧
      (∀ a, (∀ n < stride * rows, a ≠ s.regs.dst + BitVec.ofNat 64 n) → t.byteAt a = s.byteAt a) ∧
      t.regs = { s.regs with
        status := 0x01, dstride := BitVec.ofNat 64 stride, dbytes := BitVec.ofNat 64 (stride * rows) } ∧
      t.draws = s.draws + stride * rows ∧ t.host = s.host ∧ t.readData = s.readData ∧ t.platform = s.platform

/-- The frame of XFORM, with any outcome that is a next state: only `STATUS`, `DSTRIDE` and `DBYTES` among the registers,
the last two only on success, and no byte outside the `stride*HEIGHT` bytes at `DST`. -/
def Obligations.XformFrame : Prop :=
  ∀ (i : Instr) (s t : State), (commandParams i).2 = true → exec i s = .next t →
    t.regs = { s.regs with status := t.regs.status, dstride := t.regs.dstride, dbytes := t.regs.dbytes } ∧
    (t.regs.status ≠ 0x01 → t.regs.dstride = s.regs.dstride ∧ t.regs.dbytes = s.regs.dbytes) ∧
    (∀ a, (∀ n < roundUp ((commandParams i).1.rowBytes s.regs.width.toNat) s.platform.vw * s.regs.height.toNat,
      a ≠ s.regs.dst + BitVec.ofNat 64 n) → t.byteAt a = s.byteAt a) ∧
    t.host = s.host ∧ t.readData = s.readData ∧ t.platform = s.platform

/-- R172, R202: XFORM raises AllocationFailure exactly when it needs more bytes than `DCAP` declares, whatever the platform
accepts, and then changes nothing but `STATUS`; a ROW command never does. -/
def Obligations.AllocationFailureExactlyWhenTotalExceedsDcap : Prop :=
  (∀ (s : State) (i : Instr), (commandParams i).2 = true → i.wf = true → s.regs.dcap.toNat < s.total i →
    exec i s = .next { s with regs := { s.regs with status := 0x21 } }) ∧
  (∀ (s t : State) (i : Instr), (commandParams i).2 = true → s.total i ≤ s.regs.dcap.toNat → exec i s = .next t →
    t.regs.status ≠ 0x21) ∧
  ∀ (s t : State) (i : Instr), (commandParams i).2 = false → exec i s = .next t → t.regs.status ≠ 0x21

/-- R179 (a), (b): with `HEIGHT = 0` or `WIDTH = 0` XFORM completes for every `DCAP` and platform and touches no memory. -/
def Obligations.EmptyImageTouchesNoMemory : Prop :=
  ∀ (s : State) (i : Instr), (commandParams i).2 = true → i.wf = true →
    (s.regs.height = 0 → exec i s = .next { s with regs := { s.regs with
      status := 0x01, dstride := BitVec.ofNat 64 (s.rowStride (commandParams i).1), dbytes := 0 } }) ∧
    (s.regs.width = 0 → exec i s = .next { s with regs := { s.regs with status := 0x01, dstride := 0, dbytes := 0 } })

/-- R176: XFORM changes no byte outside the `DCAP` bytes the host declared at `DST`. -/
def Obligations.XformStaysInDeclaredBuffer : Prop :=
  ∀ (i : Instr) (s t : State), (commandParams i).2 = true → exec i s = .next t →
    ∀ a, (∀ n < s.regs.dcap.toNat, a ≠ s.destByte n) → t.byteAt a = s.byteAt a

/-- R177: when the capacity check passes, two rows of the destination share no byte. -/
def Obligations.DestinationRowsAreDisjoint : Prop :=
  ∀ (s : State) (i : Instr), (commandParams i).2 = true → s.HasCapacity i →
    ∀ row < s.regs.height.toNat, ∀ row' < s.regs.height.toNat, row ≠ row' →
      ∀ o < s.rowStride (commandParams i).1, ∀ o' < s.rowStride (commandParams i).1,
        s.destByte (row * s.rowStride (commandParams i).1 + o) ≠ s.destByte (row' * s.rowStride (commandParams i).1 + o')

/-- R173: XFORM does to each row what the ROW command with the same channel set, depth and swap does to that row. -/
def Obligations.XformDoesEachRowAsRowCommand : Prop :=
  ∀ (s : State) (ch : Channels) (bits : Nat) (swap : Bool) (x r : Instr),
    (x = .xform8 ch swap ∧ r = .row8 ch swap ∨ x = .xform16 ch bits swap ∧ r = .row16 ch bits swap) →
    s.Runnable x → s.NoOverlap (commandParams x).1 (s.rows x) →
    ∃ t, exec x s = .next t ∧
      ∀ row < s.regs.height.toNat,
        ∃ u, exec r { s with regs := s.regs.atRow (s.rowStride (commandParams x).1) row } = .next u ∧
          ∀ o < s.rowBytes (commandParams x).1,
            t.byteAt (s.destByte (s.rowStride (commandParams x).1 * row + o)) =
              u.byteAt (s.destByte (s.rowStride (commandParams x).1 * row + o))

/-- A command that can run completes even where its write set overlaps its read set (MODEL'S CHOICE, log 9: the draw of U2).
It still writes nothing outside its write set, and a sample still reaches its place where none of its source bytes is in the
write set and none of its destination bytes in the read set. -/
def Obligations.OverlappingCommandCompletes : Prop :=
  ∀ (i : Instr) (s : State) (p : Params) (stride : Nat), p = (commandParams i).1 → stride = s.rowStride p → s.Runnable i →
    ∃ t, exec i s = .next t ∧ t.regs.status = 0x01 ∧
      (∀ a, ¬ s.InWriteSet i a → t.byteAt a = s.byteAt a) ∧
      (p.wide = false → ∀ row < s.rows i, ∀ k < s.regs.width.toNat, ∀ c < p.ch.count, ∀ src dst : Addr,
        src = s.planeByte row c k → dst = s.destByte (row * stride + (k * p.ch.count + c)) →
        ¬ s.InWriteSet i src → ¬ s.InReadSet i dst → t.byteAt dst = s.byteAt src) ∧
      (p.wide = true → ∀ row < s.rows i, ∀ k < s.regs.width.toNat, ∀ c < p.ch.count, ∀ src dst : Addr,
        src = s.planeByte row c (2 * k) → dst = s.destByte (row * stride + 2 * (k * p.ch.count + c)) →
        ¬ s.InWriteSet i src → ¬ s.InWriteSet i (src + 1) → ¬ s.InReadSet i dst → ¬ s.InReadSet i (dst + 1) →
        t.slotAt dst = norm p.bits p.swap (s.slotAt src))

/-! ### Errors -/

/-- R201: an illegal word written to `CMD`, by a step whose next host access is that write or through the memory-mapped
window, changes nothing but `STATUS`. -/
def Obligations.IllegalCommandChangesOnlyStatus : Prop :=
  (∀ (s : State) (v : BitVec 64) (rest : List HostOp), s.host = .regWrite .cmd v :: rest →
    (∀ i, decode (v.setWidth 32) ≠ .ok i) →
    step s = .next { s with regs := { s.regs with status := 0x11 }, host := rest }) ∧
  ∀ (cmd : CmdWord) (s : State), (∀ i, decode cmd ≠ .ok i) →
    regWrite .cmd (cmd.setWidth 64) s = .next { s with regs := { s.regs with status := 0x11 } }

/-- R203: a legal command with the capacity it needs, off the register window, raises BusFault exactly when some byte of its
read set or write set has `MemOK` false. `DSTRIDE` and `DBYTES` keep their values, every accepted byte of the write set
becomes a free byte, and no byte outside the write set changes; where the write set overlaps no source, no source byte
changes. -/
def Obligations.BusFaultExactlyWhenAccessRefused : Prop :=
  ∀ (i : Instr) (s : State), i.wf = true → s.HasCapacity i → s.OffWindow (commandParams i).1 (s.rows i) →
    ∃ t, exec i s = .next t ∧
      (t.regs.status = 0x31 ↔ ∃ a, (s.InReadSet i a ∨ s.InWriteSet i a) ∧ s.platform.memOK a = false) ∧
      (t.regs.status = 0x31 →
        t.regs = { s.regs with status := 0x31 } ∧
        (∀ n < s.total i, s.platform.memOK (s.destByte n) = true →
          t.byteAt (s.destByte n) = Config.freeByte (s.draws + n)) ∧
        (∀ a, ¬ s.InWriteSet i a → t.byteAt a = s.byteAt a) ∧
        (s.NoOverlap (commandParams i).1 (s.rows i) → ∀ a, s.InReadSet i a → t.byteAt a = s.byteAt a))

/-- R209: the checks are made in order, legality, capacity, memory accesses, and `STATUS` reports the first that fails. -/
def Obligations.StatusReportsFirstFailedCheck : Prop :=
  ∀ (cmd : CmdWord) (s t : State), execute cmd s = .next t →
    ((∀ i, decode cmd ≠ .ok i) → t.regs.status = 0x11) ∧
    ∀ i, decode cmd = .ok i →
      (¬ s.HasCapacity i → t.regs.status = 0x21) ∧
      (s.HasCapacity i → (∃ a, (s.InReadSet i a ∨ s.InWriteSet i a) ∧ s.platform.memOK a = false) →
        t.regs.status = 0x31) ∧
      (s.HasCapacity i → (∀ a, s.InReadSet i a ∨ s.InWriteSet i a → s.platform.memOK a = true) → t.regs.status = 0x01)

/-- R192, R29: a command that ends leaves one of four `STATUS` words, with `DONE` set and the reserved bits 0. -/
def Obligations.CommandEndsInOneOfFourWays : Prop :=
  ∀ (cmd : CmdWord) (s t : State), execute cmd s = .next t →
    (t.regs.status = 0x01 ∨ t.regs.status = 0x11 ∨ t.regs.status = 0x21 ∨ t.regs.status = 0x31) ∧
      statusDone t.regs.status = true ∧ statusReserved t.regs.status = 0 ∧ (statusErr t.regs.status).toNat ≤ 3

/-- R57: where the write set and the read set share no byte, no command changes a source byte, whatever its outcome. -/
def Obligations.SourcesAreNeverWritten : Prop :=
  ∀ (i : Instr) (s t : State), s.NoOverlap (commandParams i).1 (s.rows i) → exec i s = .next t →
    ∀ a, s.InReadSet i a → t.byteAt a = s.byteAt a

/-- A command whose accesses touch the engine's own register window is refused, as U5 says a model should. -/
def Obligations.WindowAccessIsRefused : Prop :=
  ∀ (i : Instr) (s : State), i.wf = true → s.HasCapacity i →
    (∃ a, (s.InReadSet i a ∨ s.InWriteSet i a) ∧ s.platform.inWindow a = true) →
    exec i s = .refused .registerWindowTouched

/-! ### What a command does not depend on -/

/-- The result of a command does not depend on what the destination held before. Of the data bytes and the registers this is
R56. That the pad bytes agree too is the MODEL'S CHOICE (log 7): both runs draw the same free bytes, where U1 admits a pad that
is unchanged. -/
def Obligations.ResultIgnoresOldDestination : Prop :=
  ∀ (i : Instr) (s : State) (m : Memory), s.Runnable i → s.NoOverlap (commandParams i).1 (s.rows i) →
    (∀ a, ¬ s.InWriteSet i a → { s with mem := m }.byteAt a = s.byteAt a) →
    ∃ t t', exec i s = .next t ∧ exec i { s with mem := m } = .next t' ∧ t'.regs = t.regs ∧
      ∀ a, t'.byteAt a = t.byteAt a

/-- R36 and the read matrix of R35: a command's memory result and `STATUS` do not depend on `STATUS`, `DSTRIDE`, `DBYTES`,
the planes it does not use, nor, for a ROW command, on any stride, `DCAP` or `HEIGHT`. That unspecified bytes agree too is the
MODEL'S CHOICE (log 7): both runs draw the same free bytes. -/
def Obligations.ResultIgnoresUnusedRegisters : Prop :=
  ∀ (i : Instr) (s t : State) (r : Regs),
    r.dst = s.regs.dst → r.width = s.regs.width → (∀ c < (commandParams i).1.ch.count, r.src c = s.regs.src c) →
    ((commandParams i).2 = true → r.dcap = s.regs.dcap ∧ r.height = s.regs.height ∧
      ∀ c < (commandParams i).1.ch.count, r.sstride c = s.regs.sstride c) →
    exec i s = .next t →
    ∃ t', exec i { s with regs := r } = .next t' ∧ (∀ a, t'.byteAt a = t.byteAt a) ∧
      t'.regs.status = t.regs.status ∧
      ((commandParams i).2 = true → t.regs.status = 0x01 →
        t'.regs.dstride = t.regs.dstride ∧ t'.regs.dbytes = t.regs.dbytes)

/-- R8: the data bytes of a command do not depend on `VW`; only the stride and the pad do. -/
def Obligations.DataBytesIgnoreVectorWidth : Prop :=
  ∀ (i : Instr) (s : State) (n : Fin 35) (s' : State), s' = { s with platform := { s.platform with vwLog := n } } →
    s.Runnable i → s.NoOverlap (commandParams i).1 (s.rows i) →
    s'.Runnable i → s'.NoOverlap (commandParams i).1 (s'.rows i) →
    ∃ t t', exec i s = .next t ∧ exec i s' = .next t' ∧
      ∀ row < s.rows i, ∀ o < s.rowBytes (commandParams i).1,
        t'.byteAt (s.destByte (s'.rowStride (commandParams i).1 * row + o)) =
          t.byteAt (s.destByte (s.rowStride (commandParams i).1 * row + o))

/-! ### The vectorised computation -/

/-- R137: one zip interleaves two vectors, and two levels of zip four, lane by lane. -/
def Obligations.ZipInterleavesTwoAndFour : Prop :=
  ∀ (α : Type) (lanes : Nat) (v : Nat → List α), (∀ c < 4, (v c).length = lanes) →
    (∀ i < lanes, ∀ c < 2, (zipLanes (v 0) (v 1))[2 * i + c]? = (v c)[i]?) ∧
    ∀ i < lanes, ∀ c < 4, (zipLanes (zipLanes (v 0) (v 2)) (zipLanes (v 1) (v 3)))[4 * i + c]? = (v c)[i]?

/-- R138: with a power-of-two number of lanes, shuffle-then-blend puts lane `i` of vector `c` at lane `3i + c`. -/
def Obligations.ShuffleBlendInterleavesThree : Prop :=
  ∀ (α : Type) [Inhabited α] (n : Nat) (v : Nat → List α), (∀ c < 3, (v c).length = 2 ^ n) →
    (shuffleBlend (2 ^ n) (v 0) (v 1) (v 2)).length = 3 * 2 ^ n ∧
    ∀ i < 2 ^ n, ∀ c < 3, (shuffleBlend (2 ^ n) (v 0) (v 1) (v 2))[3 * i + c]? = (v c)[i]?

/-- R136, R156, R8: chunks and tail of a vectorised implementation of any power-of-two width give exactly the data bytes of
the scalar rule, for every channel set, sample width and row. -/
def Obligations.VectorRowEqualsScalarRow : Prop :=
  ∀ (j : Job) (s : State) (row n : Nat),
    j.vectorRow (2 ^ (n + 1)) s row = (List.range (j.par.rowBytes j.width)).map fun o => j.dataByte s row o

/-! ### Host accesses -/

/-- R190, R33, R34: a step whose next host access is a register write performs `regWrite` with that access taken, for every
register. A write to a 64-bit register stores all of `v`, to `WIDTH` or `HEIGHT` its low 32 bits, to a read-only register
nothing, and to `CMD` executes the low 32 bits; no other register and no memory changes. -/
def Obligations.RegWriteStoresByWidth : Prop :=
  (∀ (s : State) (rest : List HostOp) (i : Reg) (v : BitVec 64), s.host = .regWrite i v :: rest →
    step s = regWrite i v { s with host := rest }) ∧
  (∀ (s : State) (i : Reg) (v : BitVec 64), i ≠ .cmd →
    ∃ t, regWrite i v s = .next t ∧
      (∀ j, j ≠ i → t.regs.read j = s.regs.read j) ∧
      (i.index < 10 → t.regs.read i = v) ∧
      (i.index = 10 ∨ i.index = 11 → (t.regs.read i).toNat = v.toNat % 2 ^ 32) ∧
      (12 < i.index → t.regs.read i = s.regs.read i) ∧
      { t with regs := s.regs } = s) ∧
  ∀ (s : State) (v : BitVec 64), regWrite .cmd v s = execute (v.setWidth 32) s

/-- R191: a read returns the register, zero-extended, and 0 for `CMD`; it changes nothing but the value returned. -/
def Obligations.RegReadReturnsRegister : Prop :=
  ∀ (s : State) (rest : List HostOp) (i : Reg), s.host = .regRead i :: rest →
    ∃ t, step s = .next t ∧ { t with readData := s.readData, host := s.host } = s ∧ t.host = rest ∧
      t.readData =
        match i with
        | .src0 => s.regs.src0
        | .src1 => s.regs.src1
        | .src2 => s.regs.src2
        | .src3 => s.regs.src3
        | .sstride0 => s.regs.sstride0
        | .sstride1 => s.regs.sstride1
        | .sstride2 => s.regs.sstride2
        | .sstride3 => s.regs.sstride3
        | .dst => s.regs.dst
        | .dcap => s.regs.dcap
        | .width => BitVec.ofNat 64 s.regs.width.toNat
        | .height => BitVec.ofNat 64 s.regs.height.toNat
        | .cmd => 0
        | .status => BitVec.ofNat 64 s.regs.status.toNat
        | .dstride => s.regs.dstride
        | .dbytes => s.regs.dbytes

/-- A step whose next host access writes a legal word to `CMD` is `exec` of the command the word decodes to, with that
access taken from the pending ones. -/
def Obligations.StepRunsDecodedCommand : Prop :=
  ∀ (s : State) (v : BitVec 64) (rest : List HostOp) (i : Instr), s.host = .regWrite .cmd v :: rest →
    decode (v.setWidth 32) = .ok i → step s = exec i { s with host := rest }

/-- The word that `withFetchWord` places is the next command that runs. -/
def Obligations.FetchedWordRunsNext : Prop :=
  ∀ (s : State) (w : Nat) (i : Instr), decodeTableWord 32 w = some i → step (s.withFetchWord 32 w) = exec i s

/-- R216: with no host access pending the engine holds its state. -/
def Obligations.IdleEngineHoldsState : Prop :=
  ∀ s : State, s.host = [] → step s = .next s

/-- R62, R193: on a memory-mapped platform an 8-byte access at `RBASE + 8*i` is the access to register `i`. Every other access
meant for the register file, and every byte access in the window, is refused (MODEL'S CHOICE of stop, log 11: U7 gives them
no meaning). -/
def Obligations.WindowCellsAreRegisters : Prop :=
  (∀ (s : State) (rest : List HostOp) (b : Addr) (i : Reg) (v : BitVec 64), s.platform.rbase = some b →
    (s.host = .mmioWrite (b + BitVec.ofNat 64 (8 * i.index)) 8 v :: rest →
      step s = regWrite i v { s with host := rest }) ∧
    (s.host = .mmioRead (b + BitVec.ofNat 64 (8 * i.index)) 8 :: rest →
      step s = .next (regRead i { s with host := rest }))) ∧
  (∀ (s : State) (rest : List HostOp) (a : Addr) (size : Nat) (v : BitVec 64),
    (∀ (b : Addr) (i : Reg), s.platform.rbase = some b → a = b + BitVec.ofNat 64 (8 * i.index) → size ≠ 8) →
    s.host = .mmioWrite a size v :: rest ∨ s.host = .mmioRead a size :: rest →
    step s = .refused .undefinedRegisterAccess) ∧
  ∀ (s : State) (rest : List HostOp) (b a : Addr) (x : Byte) (n : Nat), s.platform.rbase = some b → n < 128 →
    a = b + BitVec.ofNat 64 n → s.host = .memWrite a x :: rest ∨ s.host = .memRead a :: rest →
    step s = .refused .undefinedRegisterAccess

/-- R58: outside the register window a byte the host stores is the byte a later load returns, and no other byte and no
register changes. That the two accesses complete also where `MemOK` is false is the MODEL'S CHOICE (log 22). -/
def Obligations.MemoryReturnsLastByteWritten : Prop :=
  ∀ (s : State) (a : Addr) (b : Byte) (rest : List HostOp), s.host = .memWrite a b :: .memRead a :: rest →
    s.platform.inWindow a = false →
    ∃ t u, step s = .next t ∧ step t = .next u ∧ u.readData.toNat = b.toNat ∧ u.regs = s.regs ∧ u.host = rest ∧
      u.byteAt a = b ∧ ∀ a', a' ≠ a → u.byteAt a' = s.byteAt a'

/-- R40, R230: reset makes every register read 0 and changes no byte of memory. -/
def Obligations.ResetInputClearsRegisters : Prop :=
  ∀ (s : State) (rest : List HostOp), s.host = .reset :: rest →
    ∃ t, step s = .next t ∧ (∀ i, t.regs.read i = 0) ∧ t.mem = s.mem ∧ t.host = rest

/-- R230: a command that reset cuts short leaves every register reset, no byte outside the command's write set changed, and
the accepted bytes of the write set free. A word that accesses no memory (R201, R202) leaves every register reset and
nothing else changed. That such a reset is one host access, and the refusal of a command whose accesses touch the register
window, are the MODEL'S CHOICES (logs 14 and 10). -/
def Obligations.ResetDuringCommandAbandonsIt : Prop :=
  (∀ (s : State) (cmd : CmdWord) (i : Instr) (rest : List HostOp), s.host = .resetDuring cmd :: rest →
    decode cmd = .ok i → s.HasCapacity i → s.OffWindow (commandParams i).1 (s.rows i) →
    ∃ t, step s = .next t ∧ t.regs = Regs.reset ∧ t.host = rest ∧
      (∀ n < s.total i, s.platform.memOK (s.destByte n) = true → t.byteAt (s.destByte n) = Config.freeByte (s.draws + n)) ∧
      ∀ a, ¬ s.InWriteSet i a → t.byteAt a = s.byteAt a) ∧
  (∀ (s : State) (cmd : CmdWord) (rest : List HostOp), s.host = .resetDuring cmd :: rest →
    (∀ i, decode cmd = .ok i → ¬ s.HasCapacity i) →
    step s = .next { s with regs := Regs.reset, host := rest }) ∧
  ∀ (s : State) (cmd : CmdWord) (i : Instr) (rest : List HostOp), s.host = .resetDuring cmd :: rest →
    decode cmd = .ok i → s.HasCapacity i →
    (∃ a, (s.InReadSet i a ∨ s.InWriteSet i a) ∧ s.platform.inWindow a = true) →
    step s = .refused .registerWindowTouched

/-- R40: the machine after reset reads 0 in every register, and `STATUS` says no command has ended. -/
def Obligations.ResetStateReadsZero : Prop :=
  (∀ i, State.reset.regs.read i = 0) ∧ statusDone State.reset.regs.status = false ∧ State.reset.mem = []

/-- R231: straight after reset, on any platform, `xform ch=1, w=8` transfers nothing and ends with `STATUS = 0x01`. -/
def Obligations.XformStraightAfterReset : Prop :=
  ∀ s : State, s.regs = Regs.reset →
    step (s.withFetchWord 32 0x088) = .next { s with regs := { Regs.reset with status := 0x01 } }

/-- R95: the command lines of a script write to `CMD` the words of the commands they name. With `w=8` every `bits=` other than
8, and with `w=16` a missing `bits=`, is an assembler error. -/
def Obligations.ScriptLinesWriteTheirCommands : Prop :=
  ∀ (ch : Channels) (swap : Bool),
    (ScriptLine.row8 ch swap).expand = some [.regWrite .cmd ((encode (.row8 ch swap)).setWidth 64)] ∧
    (ScriptLine.xform ch .w8 none swap).expand = some [.regWrite .cmd ((encode (.xform8 ch swap)).setWidth 64)] ∧
    (ScriptLine.xform ch .w8 (some 8) swap).expand = some [.regWrite .cmd ((encode (.xform8 ch swap)).setWidth 64)] ∧
    (∀ bits, 8 ≤ bits → bits ≤ 16 →
      (ScriptLine.row16 ch bits swap).expand = some [.regWrite .cmd ((encode (.row16 ch bits swap)).setWidth 64)] ∧
      (ScriptLine.xform ch .w16 (some bits) swap).expand =
        some [.regWrite .cmd ((encode (.xform16 ch bits swap)).setWidth 64)]) ∧
    (∀ bits, bits ≠ 8 → (ScriptLine.xform ch .w8 (some bits) swap).expand = none) ∧
    (ScriptLine.xform ch .w16 none swap).expand = none

/-- R96: `plane`, `dest` and `dims` write the registers they name, and `transform` is `xform`. -/
def Obligations.PseudoInstructionsExpand : Prop :=
  (∀ (c : Fin 4) (addr stride : BitVec 64) (r : Regs),
    ∃ i j, (ScriptLine.plane c addr stride).expand = some [.regWrite i addr, .regWrite j stride] ∧
      i.index = c.val ∧ j.index = 4 + c.val ∧
      ((r.write i addr).write j stride).src c.val = addr ∧ ((r.write i addr).write j stride).sstride c.val = stride) ∧
  (∀ addr cap, (ScriptLine.dest addr cap).expand = some [.regWrite .dst addr, .regWrite .dcap cap]) ∧
  (∀ w h, (ScriptLine.dims w h).expand = some [.regWrite .width w, .regWrite .height h]) ∧
  ∀ ch w bits swap, (ScriptLine.transform ch w bits swap).expand = (ScriptLine.xform ch w bits swap).expand

/-! ### The whole machine -/

/-- Every step keeps the invariant: memory in canonical form, a legal `STATUS`, and `DSTRIDE` and `DBYTES` that describe an
image of padded rows. -/
def Obligations.StepKeepsInvariant : Prop :=
  ∀ s t : State, s.Inv → step s = .next t → t.Inv

/-- The state after reset meets the invariant: memory in canonical form, a legal `STATUS`, and `DSTRIDE` and `DBYTES` that
describe an image. That reset memory lists no byte is the MODEL'S CHOICE (log 8). -/
def Obligations.ResetMeetsInvariant : Prop := State.reset.Inv

/-- Every step takes exactly the next host access, never changes the platform and never takes back a draw of free bytes. A
command that stores bytes (it completed or raised BusFault) advances the draws by the length of its write set, any other by
nothing. The pending accesses, the platform and the draws are the MODEL'S own fields (logs 1, 3 and 7). -/
def Obligations.StepTakesOneAccess : Prop :=
  (∀ s t : State, step s = .next t → t.host = s.host.tail ∧ t.platform = s.platform ∧ s.draws ≤ t.draws) ∧
  ∀ (i : Instr) (s t : State), exec i s = .next t →
    t.draws = s.draws + if t.regs.status = 0x01 ∨ t.regs.status = 0x31 then s.total i else 0

/-- R22 to R27: no command writes `SRC0` to `SRC3`, `SSTRIDE0` to `SSTRIDE3`, `DST`, `DCAP`, `WIDTH` or `HEIGHT`. -/
def Obligations.CommandsNeverWriteHostRegisters : Prop :=
  ∀ (cmd : CmdWord) (s t : State), execute cmd s = .next t → ∀ i : Reg, i.index < 12 → t.regs.read i = s.regs.read i

/-- R31, R32: `DSTRIDE` and `DBYTES` are written by a successful XFORM, with the padded row stride and that stride times
`HEIGHT`, and by no other command; the stride is below `2 ^ 36` and `DBYTES` at most `DCAP`, so both fit. -/
def Obligations.OutputRegistersWrittenBySuccessfulXform : Prop :=
  ∀ (i : Instr) (s t : State), exec i s = .next t →
    ((commandParams i).2 = true → t.regs.status = 0x01 →
      t.regs.dstride.toNat = roundUp ((commandParams i).1.rowBytes s.regs.width.toNat) s.platform.vw ∧
      t.regs.dstride.toNat < 2 ^ 36 ∧ t.regs.dbytes.toNat = t.regs.dstride.toNat * s.regs.height.toNat ∧
      t.regs.dbytes.toNat ≤ s.regs.dcap.toNat) ∧
    ((commandParams i).2 = false ∨ t.regs.status ≠ 0x01 →
      t.regs.dstride = s.regs.dstride ∧ t.regs.dbytes = s.regs.dbytes)

/-- R10: `roundUp(a, m)` is the least multiple of `m` that is at least `a`. -/
def Obligations.RoundUpIsLeastMultiple : Prop :=
  ∀ a m : Nat, 1 ≤ m →
    m ∣ roundUp a m ∧ a ≤ roundUp a m ∧ (∀ b, m ∣ b → a ≤ b → roundUp a m ≤ b) ∧
      roundUp a m = (a + m - 1) / m * m ∧ roundUp 0 m = 0
end

