-- ==== Sys2Proof/Laws/State.lean ====
section
/-! SUPPORT. One lemma per field per state update, so that no later proof unfolds a record update. -/

namespace Sys2Proof.Machine

section EndWith
variable (r : Regs) (e : Ending)

@[simp] theorem Regs.endWith_src0 : (r.endWith e).src0 = r.src0 := rfl
@[simp] theorem Regs.endWith_src1 : (r.endWith e).src1 = r.src1 := rfl
@[simp] theorem Regs.endWith_src2 : (r.endWith e).src2 = r.src2 := rfl
@[simp] theorem Regs.endWith_src3 : (r.endWith e).src3 = r.src3 := rfl
@[simp] theorem Regs.endWith_sstride0 : (r.endWith e).sstride0 = r.sstride0 := rfl
@[simp] theorem Regs.endWith_sstride1 : (r.endWith e).sstride1 = r.sstride1 := rfl
@[simp] theorem Regs.endWith_sstride2 : (r.endWith e).sstride2 = r.sstride2 := rfl
@[simp] theorem Regs.endWith_sstride3 : (r.endWith e).sstride3 = r.sstride3 := rfl
@[simp] theorem Regs.endWith_dst : (r.endWith e).dst = r.dst := rfl
@[simp] theorem Regs.endWith_dcap : (r.endWith e).dcap = r.dcap := rfl
@[simp] theorem Regs.endWith_width : (r.endWith e).width = r.width := rfl
@[simp] theorem Regs.endWith_height : (r.endWith e).height = r.height := rfl
@[simp] theorem Regs.endWith_status : (r.endWith e).status = statusWord e := rfl
@[simp] theorem Regs.endWith_dstride : (r.endWith e).dstride = r.dstride := rfl
@[simp] theorem Regs.endWith_dbytes : (r.endWith e).dbytes = r.dbytes := rfl
@[simp] theorem Regs.endWith_src (c : Nat) : (r.endWith e).src c = r.src c := rfl
@[simp] theorem Regs.endWith_sstride (c : Nat) : (r.endWith e).sstride c = r.sstride c := rfl

end EndWith

section WithOutput
variable (r : Regs) (stride total : Nat)

@[simp] theorem Regs.withOutput_src0 : (r.withOutput stride total).src0 = r.src0 := rfl
@[simp] theorem Regs.withOutput_src1 : (r.withOutput stride total).src1 = r.src1 := rfl
@[simp] theorem Regs.withOutput_src2 : (r.withOutput stride total).src2 = r.src2 := rfl
@[simp] theorem Regs.withOutput_src3 : (r.withOutput stride total).src3 = r.src3 := rfl
@[simp] theorem Regs.withOutput_sstride0 : (r.withOutput stride total).sstride0 = r.sstride0 := rfl
@[simp] theorem Regs.withOutput_sstride1 : (r.withOutput stride total).sstride1 = r.sstride1 := rfl
@[simp] theorem Regs.withOutput_sstride2 : (r.withOutput stride total).sstride2 = r.sstride2 := rfl
@[simp] theorem Regs.withOutput_sstride3 : (r.withOutput stride total).sstride3 = r.sstride3 := rfl
@[simp] theorem Regs.withOutput_dst : (r.withOutput stride total).dst = r.dst := rfl
@[simp] theorem Regs.withOutput_dcap : (r.withOutput stride total).dcap = r.dcap := rfl
@[simp] theorem Regs.withOutput_width : (r.withOutput stride total).width = r.width := rfl
@[simp] theorem Regs.withOutput_height : (r.withOutput stride total).height = r.height := rfl
@[simp] theorem Regs.withOutput_status : (r.withOutput stride total).status = r.status := rfl
@[simp] theorem Regs.withOutput_dstride : (r.withOutput stride total).dstride = BitVec.ofNat 64 stride := rfl
@[simp] theorem Regs.withOutput_dbytes : (r.withOutput stride total).dbytes = BitVec.ofNat 64 total := rfl

end WithOutput

section RegsWrite
variable (r : Regs) (i : Reg) (v : BitVec 64)

@[simp] theorem Regs.write_status : (r.write i v).status = r.status := by cases i <;> rfl
@[simp] theorem Regs.write_dstride : (r.write i v).dstride = r.dstride := by cases i <;> rfl
@[simp] theorem Regs.write_dbytes : (r.write i v).dbytes = r.dbytes := by cases i <;> rfl

end RegsWrite

section Raise
variable (e : Ending) (s : State)

@[simp] theorem raise_regs : (raise e s).regs = s.regs.endWith e := rfl
@[simp] theorem raise_mem : (raise e s).mem = s.mem := rfl
@[simp] theorem raise_host : (raise e s).host = s.host := rfl
@[simp] theorem raise_readData : (raise e s).readData = s.readData := rfl
@[simp] theorem raise_draws : (raise e s).draws = s.draws := rfl
@[simp] theorem raise_platform : (raise e s).platform = s.platform := rfl
@[simp] theorem raise_byteAt (a : Addr) : (raise e s).byteAt a = s.byteAt a := rfl

end Raise

section StoreByte
variable (s : State) (a : Addr) (b : Byte)

@[simp] theorem State.storeByte_regs : (s.storeByte a b).regs = s.regs := rfl
@[simp] theorem State.storeByte_mem : (s.storeByte a b).mem = Memory.write s.mem a.toNat b := rfl
@[simp] theorem State.storeByte_host : (s.storeByte a b).host = s.host := rfl
@[simp] theorem State.storeByte_readData : (s.storeByte a b).readData = s.readData := rfl
@[simp] theorem State.storeByte_draws : (s.storeByte a b).draws = s.draws := rfl
@[simp] theorem State.storeByte_platform : (s.storeByte a b).platform = s.platform := rfl

end StoreByte

section Complete
variable (j : Job) (upd : Regs → Regs) (s : State)

@[simp] theorem Job.complete_regs : (j.complete upd s).regs = (upd s.regs).endWith .none := rfl
@[simp] theorem Job.complete_mem : (j.complete upd s).mem =
    Memory.fill s.mem j.dst j.total fun n => some (j.outByte s n) := rfl
@[simp] theorem Job.complete_host : (j.complete upd s).host = s.host := rfl
@[simp] theorem Job.complete_readData : (j.complete upd s).readData = s.readData := rfl
@[simp] theorem Job.complete_draws : (j.complete upd s).draws = s.draws + j.total := rfl
@[simp] theorem Job.complete_platform : (j.complete upd s).platform = s.platform := rfl

end Complete

section Scribble
variable (j : Job) (s : State)

@[simp] theorem Job.scribble_regs : (j.scribble s).regs = s.regs := rfl
@[simp] theorem Job.scribble_host : (j.scribble s).host = s.host := rfl
@[simp] theorem Job.scribble_readData : (j.scribble s).readData = s.readData := rfl
@[simp] theorem Job.scribble_draws : (j.scribble s).draws = s.draws + j.total := rfl
@[simp] theorem Job.scribble_platform : (j.scribble s).platform = s.platform := rfl

end Scribble

section RegRead
variable (i : Reg) (s : State)

@[simp] theorem regRead_regs : (regRead i s).regs = s.regs := rfl
@[simp] theorem regRead_mem : (regRead i s).mem = s.mem := rfl
@[simp] theorem regRead_host : (regRead i s).host = s.host := rfl
@[simp] theorem regRead_readData : (regRead i s).readData = s.regs.read i := rfl
@[simp] theorem regRead_draws : (regRead i s).draws = s.draws := rfl
@[simp] theorem regRead_platform : (regRead i s).platform = s.platform := rfl

end RegRead

section ResetInput
variable (s : State)

@[simp] theorem resetInput_regs : (resetInput s).regs = Regs.reset := rfl
@[simp] theorem resetInput_mem : (resetInput s).mem = s.mem := rfl
@[simp] theorem resetInput_host : (resetInput s).host = s.host := rfl
@[simp] theorem resetInput_readData : (resetInput s).readData = s.readData := rfl
@[simp] theorem resetInput_draws : (resetInput s).draws = s.draws := rfl
@[simp] theorem resetInput_platform : (resetInput s).platform = s.platform := rfl
@[simp] theorem resetInput_byteAt (a : Addr) : (resetInput s).byteAt a = s.byteAt a := rfl

end ResetInput

end Sys2Proof.Machine
end

