-- ==== Sys2Proof/Laws/Memory.lean ====
section
/-! SUPPORT. Reads after writes, and the canonical form of memory. -/

namespace Sys2Proof.Machine

@[simp] theorem Memory.get?_write_same (m : Memory) (a : Nat) (b : Byte) :
    Memory.get? (Memory.write m a b) a = some b := by
  induction m with
  | nil => simp [Memory.write, Memory.get?]
  | cons c m ih =>
    obtain ⟨x, y⟩ := c
    unfold Memory.write
    split
    · simp [Memory.get?]
    · split
      · simp [Memory.get?]
      · next h => simp [Memory.get?, Ne.symm h, ih]

theorem Memory.get?_write_other (m : Memory) {a a' : Nat} (b : Byte) (h : a' ≠ a) :
    Memory.get? (Memory.write m a b) a' = Memory.get? m a' := by
  induction m with
  | nil => simp [Memory.write, Memory.get?, Ne.symm h]
  | cons c m ih =>
    obtain ⟨x, y⟩ := c
    unfold Memory.write
    split
    · simp [Memory.get?, Ne.symm h]
    · split
      · next hx => subst hx; simp [Memory.get?, Ne.symm h]
      · simp only [Memory.get?, ih]

/-- The addresses of a memory after a write: those before and the written one. -/
theorem Memory.mem_write {m : Memory} {a : Nat} {b : Byte} {c : Host.Cell} (h : c ∈ Memory.write m a b) :
    c = (a, b) ∨ c ∈ m := by
  induction m with
  | nil => simpa [Memory.write] using h
  | cons e m ih =>
    obtain ⟨x, y⟩ := e
    unfold Memory.write at h
    split at h
    · simpa using h
    · split at h
      · rcases List.mem_cons.mp h with h | h
        · exact .inl h
        · exact .inr (List.mem_cons_of_mem _ h)
      · rcases List.mem_cons.mp h with h | h
        · exact .inr (h ▸ List.mem_cons_self)
        · exact (ih h).imp_right (List.mem_cons_of_mem _)

/-- Every write keeps the canonical form. -/
theorem Memory.write_wf {m : Memory} (h : Memory.wf m) {a : Nat} (ha : a < 2 ^ 64) (b : Byte) :
    Memory.wf (Memory.write m a b) := by
  obtain ⟨hs, hb⟩ := h
  constructor
  · clear hb
    induction m with
    | nil => simp [Memory.write]
    | cons c m ih =>
      obtain ⟨x, y⟩ := c
      rw [List.pairwise_cons] at hs
      unfold Memory.write
      split
      · next hax =>
        refine List.pairwise_cons.mpr ⟨fun e he => ?_, List.pairwise_cons.mpr hs⟩
        rcases List.mem_cons.mp he with he | he
        · subst he; exact hax
        · exact lt_trans hax (hs.1 e he)
      · split
        · next hax => subst hax; exact List.pairwise_cons.mpr hs
        · next h1 h2 =>
          refine List.pairwise_cons.mpr ⟨fun e he => ?_, ih hs.2⟩
          rcases Memory.mem_write he with he | he
          · subst he; change x < a; omega
          · exact hs.1 e he
  · intro c hc
    rcases Memory.mem_write hc with rfl | hc
    · exact ha
    · exact hb c hc

/-- Filling a range keeps the canonical form. -/
theorem Memory.fill_wf {m : Memory} (h : Memory.wf m) (d : Addr) (len : Nat) (f : Nat → Option Byte) :
    Memory.wf (Memory.fill m d len f) := by
  induction len with
  | zero => exact h
  | succ n ih =>
    unfold Memory.fill
    split
    · exact Memory.write_wf ih (BitVec.isLt _) _
    · exact ih

@[simp] theorem addrOffset_self (d : Addr) : addrOffset d d = 0 := by simp [addrOffset]

theorem addrOffset_lt (d a : Addr) : addrOffset d a < 2 ^ 64 := BitVec.isLt _

@[simp] theorem add_addrOffset (d a : Addr) : d + BitVec.ofNat 64 (addrOffset d a) = a := by
  simp only [addrOffset, BitVec.ofNat_toNat, BitVec.setWidth_eq]
  exact add_sub_cancel d a

theorem addrOffset_add (d : Addr) {n : Nat} (hn : n < 2 ^ 64) : addrOffset d (d + BitVec.ofNat 64 n) = n := by
  rw [addrOffset, add_sub_cancel_left, BitVec.toNat_ofNat, Nat.mod_eq_of_lt hn]

/-- In a range no longer than the address space, the offset of an address determines it. -/
theorem addr_eq_add_iff (a d : Addr) {n : Nat} (hn : n < 2 ^ 64) :
    a = d + BitVec.ofNat 64 n ↔ addrOffset d a = n := by
  constructor
  · rintro rfl
    exact addrOffset_add d hn
  · rintro rfl
    exact (add_addrOffset d a).symm

/-- What an address holds after a fill: the byte given for its offset, if it is in the range and one is given. -/
theorem Memory.get?_fill (m : Memory) (d : Addr) {len : Nat} (hlen : len ≤ 2 ^ 64) (f : Nat → Option Byte) (a : Addr) :
    Memory.get? (Memory.fill m d len f) a.toNat =
      if addrOffset d a < len then (f (addrOffset d a)).or (Memory.get? m a.toNat) else Memory.get? m a.toNat := by
  induction len with
  | zero => simp [Memory.fill]
  | succ n ih =>
    have ih := ih (by omega)
    unfold Memory.fill
    by_cases hn : addrOffset d a = n
    · have ha := (addr_eq_add_iff a d (by omega : n < 2 ^ 64)).mpr hn
      split
      · next b hb => rw [← ha, Memory.get?_write_same]; simp [hn, hb]
      · next hb => rw [ih]; simp [hn, hb]
    · have ha : a.toNat ≠ (d + BitVec.ofNat 64 n).toNat := fun h =>
        hn ((addr_eq_add_iff a d (by omega)).mp (BitVec.eq_of_toNat_eq h))
      have hiff : addrOffset d a < n + 1 ↔ addrOffset d a < n := by omega
      simp only [hiff]
      split
      · rw [Memory.get?_write_other _ _ ha, ih]
      · rw [ih]

@[simp] theorem State.byteAt_storeByte_same (s : State) (a : Addr) (b : Byte) : (s.storeByte a b).byteAt a = b := by
  simp [State.byteAt]

theorem State.byteAt_storeByte_other (s : State) {a a' : Addr} (b : Byte) (h : a' ≠ a) :
    (s.storeByte a b).byteAt a' = s.byteAt a' := by
  have : a'.toNat ≠ a.toNat := fun e => h (BitVec.eq_of_toNat_eq e)
  simp [State.byteAt, Memory.get?_write_other _ _ this]

/-- A byte after a command completed. -/
theorem Job.byteAt_complete (j : Job) (upd : Regs → Regs) (s : State) (h : j.total ≤ 2 ^ 64) (a : Addr) :
    (j.complete upd s).byteAt a =
      if addrOffset j.dst a < j.total then j.outByte s (addrOffset j.dst a) else s.byteAt a := by
  unfold State.byteAt
  rw [Job.complete_mem, Memory.get?_fill _ _ h]
  split <;> simp

/-- A byte after the write set became free bytes. -/
theorem Job.byteAt_scribble (j : Job) (s : State) (h : j.total ≤ 2 ^ 64) (a : Addr) :
    (j.scribble s).byteAt a =
      if addrOffset j.dst a < j.total ∧ s.platform.memOK a = true then Config.freeByte (s.draws + addrOffset j.dst a)
      else s.byteAt a := by
  unfold State.byteAt
  simp only [Job.scribble]
  rw [Memory.get?_fill _ _ h]
  by_cases h1 : addrOffset j.dst a < j.total
  · by_cases h2 : s.platform.memOK a = true <;> simp [h1, h2]
  · simp [h1]

end Sys2Proof.Machine
end

