-- ==== Sys2Proof/Laws/Ranges.lean ====
section
/-! SUPPORT. Address ranges as sets of addresses, and the arithmetic of padded rows. -/

namespace Sys2Proof

/-- An address is in a range when it is the base plus an offset below the length. -/
theorem AddrRange.contains_iff (r : AddrRange) (a : Addr) :
    r.contains a = true ↔ ∃ n < r.len, a = r.base + BitVec.ofNat 64 n := by
  simp only [AddrRange.contains, decide_eq_true_eq]
  constructor
  · intro h
    exact ⟨_, h, (Machine.add_addrOffset _ _).symm⟩
  · rintro ⟨n, hn, rfl⟩
    rw [addrOffset, add_sub_cancel_left, BitVec.toNat_ofNat]
    exact lt_of_le_of_lt (Nat.mod_le _ _) hn

/-- Two ranges meet exactly when some address is in both. -/
theorem AddrRange.meets_iff (r q : AddrRange) :
    r.meets q = true ↔ ∃ a, r.contains a = true ∧ q.contains a = true := by
  simp only [AddrRange.meets, AddrRange.contains, decide_eq_true_eq]
  constructor
  · rintro ⟨hr, hq, h | h⟩
    · exact ⟨q.base, h, by simpa using hq⟩
    · exact ⟨r.base, by simpa using hr, h⟩
  · rintro ⟨a, h1, h2⟩
    refine ⟨by omega, by omega, ?_⟩
    unfold addrOffset at *
    by_cases hle : (a - q.base).toNat ≤ (a - r.base).toNat
    · left
      have : q.base - r.base = (a - r.base) - (a - q.base) := by abel
      rw [this, BitVec.toNat_sub_of_le hle]
      omega
    · right
      have : r.base - q.base = (a - q.base) - (a - r.base) := by abel
      rw [this, BitVec.toNat_sub_of_le (show a - r.base ≤ a - q.base from by
        change (a - r.base).toNat ≤ (a - q.base).toNat; omega)]
      omega

theorem Platform.vw_pos (p : Platform) : 0 < p.vw := Nat.two_pow_pos _

theorem Platform.vw_le (p : Platform) : p.vw ≤ 2 ^ 35 :=
  Nat.pow_le_pow_right (by omega) (by have := p.vwLog.isLt; omega)

namespace Machine

@[simp] theorem roundUp_zero (m : Nat) : roundUp 0 m = 0 := rfl

/-- The formula of `00_scope.md` R10 holds at 0 as well. -/
theorem roundUp_eq (a : Nat) {m : Nat} (hm : 0 < m) : roundUp a m = (a + m - 1) / m * m := by
  unfold roundUp
  split
  · next h => subst h; rw [Nat.div_eq_of_lt (by omega)]; simp
  · rfl

theorem dvd_roundUp (a m : Nat) : m ∣ roundUp a m := by
  unfold roundUp
  split
  · exact dvd_zero _
  · exact dvd_mul_left _ _

theorem le_roundUp (a : Nat) {m : Nat} (hm : 0 < m) : a ≤ roundUp a m := by
  rw [roundUp_eq a hm]
  have := Nat.div_add_mod (a + m - 1) m
  have := Nat.mod_lt (a + m - 1) hm
  rw [Nat.mul_comm]
  omega

theorem roundUp_lt (a : Nat) {m : Nat} (hm : 0 < m) : roundUp a m < a + m := by
  rw [roundUp_eq a hm]
  have := Nat.div_mul_le_self (a + m - 1) m
  omega

theorem roundUp_pos {a : Nat} (ha : 0 < a) {m : Nat} (hm : 0 < m) : 0 < roundUp a m :=
  lt_of_lt_of_le ha (le_roundUp a hm)

theorem Params.sw_pos (p : Params) : 0 < p.sw := by unfold Params.sw; split <;> omega

theorem Params.sw_le (p : Params) : p.sw ≤ 2 := by unfold Params.sw; split <;> omega

theorem channels_count_pos (ch : Channels) : 0 < ch.count := by cases ch <;> decide

theorem channels_count_le (ch : Channels) : ch.count ≤ 4 := by cases ch <;> decide

/-- A row of 32-bit width has fewer than `2 ^ 35` data bytes (`43_plane_driver.md` R171). -/
theorem rowBytes_le (p : Params) (w : BitVec 32) : p.rowBytes w.toNat ≤ (2 ^ 32 - 1) * 8 := by
  have h1 : w.toNat ≤ 2 ^ 32 - 1 := by have := w.isLt; omega
  have h2 := p.sw_le
  have h3 := channels_count_le p.ch
  calc p.rowBytes w.toNat = w.toNat * (p.sw * p.ch.count) := by unfold Params.rowBytes; ring
    _ ≤ (2 ^ 32 - 1) * (2 * 4) := Nat.mul_le_mul h1 (Nat.mul_le_mul h2 h3)

/-- The bound of `10_state.md` R31: a padded row is shorter than `2 ^ 36` bytes. -/
theorem roundUp_rowBytes_lt (p : Params) (w : BitVec 32) (q : Platform) :
    roundUp (p.rowBytes w.toNat) q.vw < 2 ^ 36 := by
  have h1 := rowBytes_le p w
  have h2 := roundUp_lt (p.rowBytes w.toNat) q.vw_pos
  have h3 := q.vw_le
  omega

theorem rowJob_total_le (p : Params) (s : State) : (rowJob p s).total ≤ 2 ^ 64 := by
  have := roundUp_rowBytes_lt p s.regs.width s.platform
  simp only [Job.total, rowJob, Nat.mul_one]
  omega

theorem xformJob_total_lt (p : Params) (s : State) (h : (xformJob p s).total ≤ s.regs.dcap.toNat) :
    (xformJob p s).total < 2 ^ 64 := lt_of_le_of_lt h (BitVec.isLt _)

end Machine
end Sys2Proof
end

