-- ==== Sys2Proof/Laws/Commands.lean ====
section
/-! SUPPORT. What a command can do, said once for each shared operation, and the access sets as sets of addresses. -/

namespace Sys2Proof.Machine

/-- The address is in the write set. -/
theorem Job.writeRange_contains_iff (j : Job) (a : Addr) :
    j.writeRange.contains a = true ↔ ∃ n < j.total, a = j.dst + BitVec.ofNat 64 n :=
  AddrRange.contains_iff _ _

/-- The address is in the read set. -/
theorem Job.reads_iff (j : Job) (a : Addr) :
    j.reads a = true ↔ ∃ row < j.height, ∃ c < j.par.ch.count, ∃ k < j.width * j.par.sw,
      a = j.src row c + BitVec.ofNat 64 k := by
  simp only [Job.reads, Job.readRanges, List.any_eq_true, List.mem_flatMap, List.mem_range, List.mem_map]
  constructor
  · rintro ⟨_, ⟨row, hr, c, hc, rfl⟩, h⟩
    obtain ⟨k, hk, rfl⟩ := (AddrRange.contains_iff _ _).mp h
    exact ⟨row, hr, c, hc, k, hk, rfl⟩
  · rintro ⟨row, hr, c, hc, k, hk, rfl⟩
    exact ⟨_, ⟨row, hr, c, hc, rfl⟩, (AddrRange.contains_iff _ _).mpr ⟨k, hk, rfl⟩⟩

/-- A range shares an address with the access sets. -/
theorem Job.touches_iff (j : Job) (r : AddrRange) :
    j.touches r = true ↔ ∃ a, r.contains a = true ∧ (j.writeRange.contains a = true ∨ j.reads a = true) := by
  simp only [Job.touches, Bool.or_eq_true, AddrRange.meets_iff, List.any_eq_true, Job.reads]
  constructor
  · rintro (⟨a, h1, h2⟩ | ⟨q, hq, a, h1, h2⟩)
    · exact ⟨a, h1, .inl h2⟩
    · exact ⟨a, h1, .inr ⟨q, hq, h2⟩⟩
  · rintro ⟨a, h1, h2 | ⟨q, hq, h2⟩⟩
    · exact .inl ⟨a, h1, h2⟩
    · exact .inr ⟨q, hq, a, h1, h2⟩

theorem memOK_eq_false_iff (p : Platform) (a : Addr) :
    p.memOK a = false ↔ ∃ r ∈ p.refused, r.contains a = true := by
  simp [Platform.memOK]

/-- The platform refuses the command exactly when `MemOK` is false of a byte of its access sets. -/
theorem Job.refused_iff (j : Job) (p : Platform) :
    j.refused p = true ↔ ∃ a, p.memOK a = false ∧ (j.writeRange.contains a = true ∨ j.reads a = true) := by
  simp only [Job.refused, List.any_eq_true, Job.touches_iff, memOK_eq_false_iff]
  constructor
  · rintro ⟨r, hr, a, h1, h2⟩
    exact ⟨a, ⟨r, hr, h1⟩, h2⟩
  · rintro ⟨a, ⟨r, hr, h1⟩, h2⟩
    exact ⟨r, hr, a, h1, h2⟩

/-- The command touches the register window exactly when a byte of its access sets is in it. -/
theorem Job.touchesWindow_iff (j : Job) (p : Platform) :
    j.touchesWindow p = true ↔ ∃ a, p.inWindow a = true ∧ (j.writeRange.contains a = true ∨ j.reads a = true) := by
  unfold Job.touchesWindow Platform.inWindow
  cases p.window with
  | none => simp
  | some w => simpa using j.touches_iff w

/-- What the memory accesses of a legal command can lead to. -/
theorem Job.run_cases (j : Job) (upd : Regs → Regs) (s : State) :
    (j.touchesWindow s.platform = true ∧ j.run upd s = .refused .registerWindowTouched) ∨
    (j.touchesWindow s.platform = false ∧ j.refused s.platform = true ∧
      j.run upd s = .next (raise .busFault (j.scribble s))) ∨
    (j.touchesWindow s.platform = false ∧ j.refused s.platform = false ∧ j.run upd s = .next (j.complete upd s)) := by
  unfold Job.run
  cases j.touchesWindow s.platform <;> cases j.refused s.platform <;> simp

/-- A command is a ROW command or an XFORM over its parameters. -/
theorem exec_eq (i : Instr) (s : State) :
    exec i s = if (commandParams i).2 then xformCommand (commandParams i).1 s else rowCommand (commandParams i).1 s := by
  cases i <;> rfl

/-- A command is well formed exactly when its parameters are legal. -/
theorem legal_commandParams (i : Instr) : (commandParams i).1.legal = i.wf := by
  cases i <;> simp [commandParams, Params.legal, Instr.wf]

theorem exec_row8 (ch : Channels) (swap : Bool) (s : State) :
    exec (.row8 ch swap) s = rowCommand ⟨ch, false, 8, swap⟩ s := by cases ch <;> rfl

theorem exec_row16 (ch : Channels) (bits : Nat) (swap : Bool) (s : State) :
    exec (.row16 ch bits swap) s = rowCommand ⟨ch, true, bits, swap⟩ s := by cases ch <;> rfl

/-- The work of a command: one row, or `HEIGHT` rows. -/
def commandWork (i : Instr) (s : State) : Job :=
  if (commandParams i).2 then xformJob (commandParams i).1 s else rowJob (commandParams i).1 s

/-- The result registers a command writes beside `STATUS`. -/
def commandUpd (i : Instr) (s : State) : Regs → Regs :=
  if (commandParams i).2 then (·.withOutput (commandWork i s).stride (commandWork i s).total) else id

/-- A command asks for more bytes than the host declared. -/
def lacksCapacity (i : Instr) (s : State) : Prop :=
  (commandParams i).2 = true ∧ s.regs.dcap.toNat < (commandWork i s).total

/-- Everything a command can do. -/
theorem exec_cases (i : Instr) (s : State) :
    (i.wf = false ∧ exec i s = .next (raise .illegalCommand s)) ∨
    (i.wf = true ∧ lacksCapacity i s ∧ exec i s = .next (raise .allocationFailure s)) ∨
    (i.wf = true ∧ ¬ lacksCapacity i s ∧ exec i s = (commandWork i s).run (commandUpd i s) s) := by
  rw [exec_eq]
  unfold lacksCapacity commandWork commandUpd commandWork xformCommand rowCommand
  rw [legal_commandParams]
  cases i.wf
  · cases (commandParams i).2 <;> simp
  · cases (commandParams i).2
    · simp
    · by_cases h : s.regs.dcap.toNat < (xformJob (commandParams i).1 s).total
      · simp [h]
      · simp [h]

/-- Everything a command that answers a next state has done. -/
theorem exec_next {i : Instr} {s t : State} (h : exec i s = .next t) :
    t = raise .illegalCommand s ∨ t = raise .allocationFailure s ∨
    (¬ lacksCapacity i s ∧ t = raise .busFault ((commandWork i s).scribble s)) ∨
    (¬ lacksCapacity i s ∧ t = (commandWork i s).complete (commandUpd i s) s) := by
  rcases exec_cases i s with ⟨-, h'⟩ | ⟨-, -, h'⟩ | ⟨-, hc, h'⟩
  · rw [h] at h'; exact .inl (by injection h')
  · rw [h] at h'; exact .inr (.inl (by injection h'))
  · rw [h] at h'
    rcases (commandWork i s).run_cases (commandUpd i s) s with ⟨-, hr⟩ | ⟨-, -, hr⟩ | ⟨-, -, hr⟩ <;> rw [hr] at h'
    · exact absurd h' (by simp)
    · exact .inr (.inr (.inl ⟨hc, by injection h'⟩))
    · exact .inr (.inr (.inr ⟨hc, by injection h'⟩))

/-- A command that has the capacity it needs writes at most the address space. -/
theorem commandWork_total_le {i : Instr} {s : State} (h : ¬ lacksCapacity i s) : (commandWork i s).total ≤ 2 ^ 64 := by
  unfold lacksCapacity at h
  unfold commandWork at h ⊢
  split
  · next hd => exact le_of_lt (xformJob_total_lt _ _ (by simpa [hd] using h))
  · exact rowJob_total_le _ _

theorem commandWork_dst (i : Instr) (s : State) : (commandWork i s).dst = s.regs.dst := by
  unfold commandWork; split <;> rfl

theorem commandUpd_cases (i : Instr) (s : State) :
    commandUpd i s = id ∨ commandUpd i s = (·.withOutput (commandWork i s).stride (commandWork i s).total) := by
  unfold commandUpd; split <;> simp

/-- The read set of a ROW command, in the caller's terms. -/
theorem rowJob_reads_iff (p : Params) (s : State) (a : Addr) :
    (rowJob p s).reads a = true ↔ ∃ row < 1, ∃ c < p.ch.count, ∃ k < s.planeRowBytes p, a = s.planeByte row c k := by
  rw [Job.reads_iff]
  constructor
  · rintro ⟨row, hr, c, hc, k, hk, rfl⟩
    have : row = 0 := by simp only [rowJob] at hr; omega
    exact ⟨0, by omega, c, hc, k, hk, by simp [State.planeByte, rowJob]⟩
  · rintro ⟨row, hr, c, hc, k, hk, rfl⟩
    have : row = 0 := by omega
    subst this
    exact ⟨0, by simp [rowJob], c, hc, k, hk, by simp [State.planeByte, rowJob]⟩

/-- The read set of an XFORM, in the caller's terms. -/
theorem xformJob_reads_iff (p : Params) (s : State) (a : Addr) :
    (xformJob p s).reads a = true ↔
      ∃ row < s.regs.height.toNat, ∃ c < p.ch.count, ∃ k < s.planeRowBytes p, a = s.planeByte row c k :=
  Job.reads_iff _ _

theorem rowJob_total (p : Params) (s : State) : (rowJob p s).total = s.rowStride p * 1 := rfl

theorem xformJob_total (p : Params) (s : State) : (xformJob p s).total = s.rowStride p * s.regs.height.toNat := rfl

/-- Accesses that are all accepted are not refused. -/
theorem Job.refused_eq_false {j : Job} {p : Platform} (hr : ∀ a, j.reads a = true → p.memOK a = true)
    (hw : ∀ n < j.total, p.memOK (j.dst + BitVec.ofNat 64 n) = true) : j.refused p = false := by
  rw [Bool.eq_false_iff]
  intro h
  obtain ⟨a, ha, h | h⟩ := (Job.refused_iff _ _).mp h
  · obtain ⟨n, hn, rfl⟩ := (Job.writeRange_contains_iff _ _).mp h
    simp [hw n hn] at ha
  · simp [hr a h] at ha

/-- Accesses that are all off the window do not touch it. -/
theorem Job.touchesWindow_eq_false {j : Job} {p : Platform} (hr : ∀ a, j.reads a = true → p.inWindow a = false)
    (hw : ∀ n < j.total, p.inWindow (j.dst + BitVec.ofNat 64 n) = false) : j.touchesWindow p = false := by
  rw [Bool.eq_false_iff]
  intro h
  obtain ⟨a, ha, h | h⟩ := (Job.touchesWindow_iff _ _).mp h
  · obtain ⟨n, hn, rfl⟩ := (Job.writeRange_contains_iff _ _).mp h
    simp [hw n hn] at ha
  · simp [hr a h] at ha

theorem rowJob_refused_false {p : Params} {s : State} (h : s.Accepted p 1) :
    (rowJob p s).refused s.platform = false := by
  refine Job.refused_eq_false (fun a ha => ?_) (fun n hn => h.2 n hn)
  obtain ⟨row, hrow, c, hc, k, hk, rfl⟩ := (rowJob_reads_iff _ _ _).mp ha
  exact h.1 row hrow c hc k hk

theorem xformJob_refused_false {p : Params} {s : State} (h : s.Accepted p s.regs.height.toNat) :
    (xformJob p s).refused s.platform = false := by
  refine Job.refused_eq_false (fun a ha => ?_) (fun n hn => h.2 n hn)
  obtain ⟨row, hrow, c, hc, k, hk, rfl⟩ := (xformJob_reads_iff _ _ _).mp ha
  exact h.1 row hrow c hc k hk

theorem rowJob_touchesWindow_false {p : Params} {s : State} (h : s.OffWindow p 1) :
    (rowJob p s).touchesWindow s.platform = false := by
  refine Job.touchesWindow_eq_false (fun a ha => ?_) (fun n hn => h.2 n hn)
  obtain ⟨row, hrow, c, hc, k, hk, rfl⟩ := (rowJob_reads_iff _ _ _).mp ha
  exact h.1 row hrow c hc k hk

theorem xformJob_touchesWindow_false {p : Params} {s : State} (h : s.OffWindow p s.regs.height.toNat) :
    (xformJob p s).touchesWindow s.platform = false := by
  refine Job.touchesWindow_eq_false (fun a ha => ?_) (fun n hn => h.2 n hn)
  obtain ⟨row, hrow, c, hc, k, hk, rfl⟩ := (xformJob_reads_iff _ _ _).mp ha
  exact h.1 row hrow c hc k hk

/-- A ROW command whose accesses are accepted completes. -/
theorem rowCommand_completes {p : Params} {s : State} (hl : p.legal = true) (hw : s.OffWindow p 1)
    (ha : s.Accepted p 1) : rowCommand p s = .next ((rowJob p s).complete id s) := by
  simp [rowCommand, hl, Job.run, rowJob_touchesWindow_false hw, rowJob_refused_false ha]

/-- An XFORM with enough capacity whose accesses are accepted completes. -/
theorem xformCommand_completes {p : Params} {s : State} (hl : p.legal = true)
    (hc : s.rowStride p * s.regs.height.toNat ≤ s.regs.dcap.toNat) (hw : s.OffWindow p s.regs.height.toNat)
    (ha : s.Accepted p s.regs.height.toNat) :
    xformCommand p s =
      .next ((xformJob p s).complete (·.withOutput (xformJob p s).stride (xformJob p s).total) s) := by
  have : ¬ (xformJob p s).total > s.regs.dcap.toNat := by rw [xformJob_total]; omega
  simp [xformCommand, hl, this, Job.run, xformJob_touchesWindow_false hw, xformJob_refused_false ha]

/-- Where the write set and the read set share no byte, the determined bytes are the data bytes. -/
theorem Job.determined_eq {j : Job} (h : ∀ a, j.reads a = true → j.writeRange.contains a = false) {n : Nat}
    (hn : n < j.total) : j.determined n = decide (n % j.stride < j.par.rowBytes j.width) := by
  unfold Job.determined
  by_cases hd : n % j.stride < j.par.rowBytes j.width
  · have hw : j.writeRange.contains (j.dst + BitVec.ofNat 64 n) = true :=
      (Job.writeRange_contains_iff _ _).mpr ⟨n, hn, rfl⟩
    have h1 : j.reads (j.dst + BitVec.ofNat 64 n) = false := by
      rw [Bool.eq_false_iff]; intro hr; simp [h _ hr] at hw
    have h2 : (j.sourceRange (n / j.stride) (n % j.stride)).meets j.writeRange = false := by
      rw [Bool.eq_false_iff]
      intro hm
      obtain ⟨a, ha, hw⟩ := (AddrRange.meets_iff _ _).mp hm
      have hrow : n / j.stride < j.height := by
        apply Nat.div_lt_of_lt_mul; exact hn
      have hr : j.reads a = true := by
        rw [Job.reads_iff]
        obtain ⟨x, hx, rfl⟩ := (AddrRange.contains_iff _ _).mp ha
        generalize n % j.stride = o at *
        have hc := channels_count_pos j.par.ch
        unfold Job.sourceRange at hx ⊢
        by_cases hwide : j.par.wide = true
        · simp only [hwide, if_true] at hx ⊢
          have hsw : j.par.sw = 2 := by simp [Params.sw, hwide]
          have hq : o / 2 < j.width * j.par.ch.count := by
            simp only [Params.rowBytes, hsw] at hd
            rw [Nat.div_lt_iff_lt_mul (by omega)]
            calc o < j.width * 2 * j.par.ch.count := hd
              _ = j.width * j.par.ch.count * 2 := by ring
          have hk : o / 2 / j.par.ch.count < j.width := Nat.div_lt_of_lt_mul (by rwa [Nat.mul_comm])
          refine ⟨_, hrow, o / 2 % j.par.ch.count, Nat.mod_lt _ hc, 2 * (o / 2 / j.par.ch.count) + x, by rw [hsw]; omega, ?_⟩
          rw [add_assoc, ← BitVec.ofNat_add]
        · simp only [hwide] at hx ⊢
          have hsw : j.par.sw = 1 := by simp [Params.sw, hwide]
          have hk : o / j.par.ch.count < j.width := by
            simp only [Params.rowBytes, hsw, Nat.mul_one] at hd
            exact Nat.div_lt_of_lt_mul (by rwa [Nat.mul_comm])
          have hx0 : x = 0 := by simp at hx; omega
          subst hx0
          exact ⟨_, hrow, o % j.par.ch.count, Nat.mod_lt _ hc, o / j.par.ch.count, by rw [hsw]; omega, by simp⟩
      simp [h _ hr] at hw
    simp [hd, h1, h2]
  · simp [hd]

/-- A data byte of a completed command whose write set and read set share no byte. -/
theorem Job.outByte_data {j : Job} (h : ∀ a, j.reads a = true → j.writeRange.contains a = false) (s : State)
    {row o : Nat} (hrow : row < j.height) (ho : o < j.par.rowBytes j.width) (hs : j.par.rowBytes j.width ≤ j.stride) :
    j.outByte s (j.stride * row + o) = j.dataByte s row o := by
  have hpos : 0 < j.stride := by omega
  have hn : j.stride * row + o < j.total := by
    have : j.stride * (row + 1) ≤ j.stride * j.height := Nat.mul_le_mul_left _ hrow
    rw [Nat.mul_succ] at this
    simp only [Job.total]; omega
  have hm : (j.stride * row + o) % j.stride = o := by
    rw [Nat.mul_add_mod, Nat.mod_eq_of_lt (by omega)]
  have hd : (j.stride * row + o) / j.stride = row := by
    rw [Nat.mul_add_div hpos, Nat.div_eq_of_lt (by omega), Nat.add_zero]
  unfold Job.outByte
  rw [Job.determined_eq h hn, hm, hd]
  simp [ho]

/-- The bytes of a completed command at an offset of its destination. -/
theorem Job.byteAt_complete_at (j : Job) (upd : Regs → Regs) (s : State) (h : j.total ≤ 2 ^ 64) {n : Nat}
    (hn : n < j.total) : (j.complete upd s).byteAt (j.dst + BitVec.ofNat 64 n) = j.outByte s n := by
  rw [Job.byteAt_complete _ _ _ h, addrOffset_add _ (by omega), if_pos hn]

/-- A ROW command that overlaps nothing, in terms of its access sets. -/
theorem rowJob_apart {p : Params} {s : State} (h : s.NoOverlap p 1) (a : Addr) (ha : (rowJob p s).reads a = true) :
    (rowJob p s).writeRange.contains a = false := by
  obtain ⟨row, hr, c, hc, k, hk, rfl⟩ := (rowJob_reads_iff _ _ _).mp ha
  rw [Bool.eq_false_iff]
  intro hw
  obtain ⟨n, hn, he⟩ := (Job.writeRange_contains_iff _ _).mp hw
  exact h row hr c hc k hk n hn he

/-- An XFORM that overlaps nothing, in terms of its access sets. -/
theorem xformJob_apart {p : Params} {s : State} (h : s.NoOverlap p s.regs.height.toNat) (a : Addr)
    (ha : (xformJob p s).reads a = true) : (xformJob p s).writeRange.contains a = false := by
  obtain ⟨row, hr, c, hc, k, hk, rfl⟩ := (xformJob_reads_iff _ _ _).mp ha
  rw [Bool.eq_false_iff]
  intro hw
  obtain ⟨n, hn, he⟩ := (Job.writeRange_contains_iff _ _).mp hw
  exact h row hr c hc k hk n hn he

/-- The index of channel `c` of pixel `k` is one of the row. -/
theorem sample_index_lt {k c n width : Nat} (hk : k < width) (hc : c < n) : k * n + c < width * n := by
  have : (k + 1) * n ≤ width * n := Nat.mul_le_mul_right _ hk
  rw [Nat.succ_mul] at this
  omega

/-- A pad byte of a completed command is a free byte. -/
theorem Job.outByte_pad {j : Job} (s : State) {n : Nat} (h : j.par.rowBytes j.width ≤ n % j.stride) :
    j.outByte s n = Config.freeByte (s.draws + n) := by
  have : j.determined n = false := by simp [Job.determined]; omega
  simp [Job.outByte, this]

/-- Completing changes no byte outside the write set. -/
theorem Job.byteAt_complete_outside (j : Job) (upd : Regs → Regs) (s : State) (h : j.total ≤ 2 ^ 64) {a : Addr}
    (ha : ∀ n < j.total, a ≠ j.dst + BitVec.ofNat 64 n) : (j.complete upd s).byteAt a = s.byteAt a := by
  rw [Job.byteAt_complete _ _ _ h, if_neg]
  exact fun hlt => ha _ hlt (by simp)

/-- Abandoning changes no byte outside the write set. -/
theorem Job.byteAt_scribble_outside (j : Job) (s : State) (h : j.total ≤ 2 ^ 64) {a : Addr}
    (ha : ∀ n < j.total, a ≠ j.dst + BitVec.ofNat 64 n) : (j.scribble s).byteAt a = s.byteAt a := by
  rw [Job.byteAt_scribble _ _ h, if_neg]
  exact fun hlt => ha _ hlt.1 (by simp)

/-- A slot is given by its two bytes. -/
theorem State.slotAt_of_bytes {s : State} {a : Addr} {v : Slot} (h0 : s.byteAt a = v.extractLsb' 0 8)
    (h1 : s.byteAt (a + 1) = v.extractLsb' 8 8) : s.slotAt a = v := by
  unfold State.slotAt
  rw [h0, h1]
  apply BitVec.eq_of_getLsbD_eq
  intro i hi
  simp only [BitVec.getLsbD_append, BitVec.getLsbD_extractLsb']
  by_cases h8 : i < 8
  · simp [h8]
  · simp [h8, show i - 8 < 8 by omega, show 8 + (i - 8) = i by omega]

/-- The length of the write set, in the caller's terms. -/
theorem State.total_eq (i : Instr) (s : State) : s.total i = (commandWork i s).total := by
  unfold State.total State.rows commandWork
  split <;> simp [rowJob_total, xformJob_total]

/-- A command lacks capacity when its total exceeds `DCAP`. -/
theorem lacksCapacity_iff (i : Instr) (s : State) : lacksCapacity i s ↔ ¬ s.HasCapacity i := by
  unfold lacksCapacity State.HasCapacity
  rw [State.total_eq]
  constructor
  · rintro ⟨hd, hlt⟩ h
    exact absurd (h hd) (by omega)
  · intro h
    push Not at h
    exact h

/-- The read set of a command, in the caller's terms. -/
theorem commandWork_reads_iff (i : Instr) (s : State) (a : Addr) :
    (commandWork i s).reads a = true ↔ s.InReadSet i a := by
  unfold commandWork State.InReadSet State.rows
  split
  · exact xformJob_reads_iff _ _ _
  · exact rowJob_reads_iff _ _ _

/-- The write set of a command, in the caller's terms. -/
theorem commandWork_writes_iff (i : Instr) (s : State) (a : Addr) :
    (commandWork i s).writeRange.contains a = true ↔ s.InWriteSet i a := by
  rw [Job.writeRange_contains_iff, ← State.total_eq, commandWork_dst]
  rfl

/-- Accesses off the window do not touch it. -/
theorem commandWork_touchesWindow_false {i : Instr} {s : State} (h : s.OffWindow (commandParams i).1 (s.rows i)) :
    (commandWork i s).touchesWindow s.platform = false := by
  apply Job.touchesWindow_eq_false
  · intro a ha
    obtain ⟨row, hr, c, hc, k, hk, rfl⟩ := (commandWork_reads_iff _ _ _).mp ha
    exact h.1 row hr c hc k hk
  · intro n hn
    rw [commandWork_dst]
    rw [← State.total_eq] at hn
    exact h.2 n hn

/-- The platform refuses a command exactly when it refuses a byte of its access sets. -/
theorem commandWork_refused_iff {i : Instr} {s : State} :
    (commandWork i s).refused s.platform = true ↔
      ∃ a, (s.InReadSet i a ∨ s.InWriteSet i a) ∧ s.platform.memOK a = false := by
  rw [Job.refused_iff]
  simp only [commandWork_reads_iff, commandWork_writes_iff]
  constructor
  · rintro ⟨a, h, h' | h'⟩
    · exact ⟨a, .inr h', h⟩
    · exact ⟨a, .inl h', h⟩
  · rintro ⟨a, h | h, h'⟩
    · exact ⟨a, h', .inr h⟩
    · exact ⟨a, h', .inl h⟩

/-- Accepted accesses are not refused. -/
theorem commandWork_refused_false {i : Instr} {s : State} (h : s.Accepted (commandParams i).1 (s.rows i)) :
    (commandWork i s).refused s.platform = false := by
  rw [Bool.eq_false_iff, Ne, commandWork_refused_iff]
  rintro ⟨a, ⟨row, hr, c, hc, k, hk, rfl⟩ | ⟨n, hn, rfl⟩, h'⟩
  · simp [h.1 row hr c hc k hk] at h'
  · simp [h.2 n hn] at h'

/-- A command that overlaps nothing, in terms of its access sets. -/
theorem commandWork_apart {i : Instr} {s : State} (h : s.NoOverlap (commandParams i).1 (s.rows i)) (a : Addr)
    (ha : (commandWork i s).reads a = true) : (commandWork i s).writeRange.contains a = false := by
  obtain ⟨row, hr, c, hc, k, hk, rfl⟩ := (commandWork_reads_iff _ _ _).mp ha
  rw [Bool.eq_false_iff, Ne, commandWork_writes_iff]
  rintro ⟨n, hn, he⟩
  exact h row hr c hc k hk n hn he

/-- A runnable command completes its work. -/
theorem exec_runnable {i : Instr} {s : State} (h : s.Runnable i) :
    exec i s = .next ((commandWork i s).complete (commandUpd i s) s) := by
  obtain ⟨h1, h2, h3, h4⟩ := h
  rcases exec_cases i s with ⟨h, -⟩ | ⟨-, h, -⟩ | ⟨-, -, h⟩
  · simp [h1] at h
  · exact absurd h2 ((lacksCapacity_iff _ _).mp h)
  · rw [h]
    simp [Job.run, commandWork_touchesWindow_false h3, commandWork_refused_false h4]

/-- Whatever the outcome, no byte outside the write set changes. -/
theorem exec_byteAt_outside {i : Instr} {s t : State} (h : exec i s = .next t) (a : Addr) (ha : ¬ s.InWriteSet i a) :
    t.byteAt a = s.byteAt a := by
  have out : ∀ n < (commandWork i s).total, a ≠ (commandWork i s).dst + BitVec.ofNat 64 n := fun n hn he =>
    ha ⟨n, by rwa [State.total_eq], by rw [he, commandWork_dst]; rfl⟩
  rcases exec_next h with rfl | rfl | ⟨hc, rfl⟩ | ⟨hc, rfl⟩
  · rfl
  · rfl
  · exact Job.byteAt_scribble_outside _ _ (commandWork_total_le hc) out
  · exact Job.byteAt_complete_outside _ _ _ (commandWork_total_le hc) out

/-- The work of a command, field by field in the caller's terms. -/
theorem commandWork_height (i : Instr) (s : State) : (commandWork i s).height = s.rows i := by
  unfold commandWork State.rows; split <;> rfl

theorem commandWork_par (i : Instr) (s : State) : (commandWork i s).par = (commandParams i).1 := by
  unfold commandWork; split <;> rfl

theorem commandWork_stride (i : Instr) (s : State) : (commandWork i s).stride = s.rowStride (commandParams i).1 := by
  unfold commandWork; split <;> rfl

theorem commandWork_width (i : Instr) (s : State) : (commandWork i s).width = s.regs.width.toNat := by
  unfold commandWork; split <;> rfl

theorem commandWork_rowBytes (i : Instr) (s : State) :
    (commandWork i s).par.rowBytes (commandWork i s).width = s.rowBytes (commandParams i).1 := by
  rw [commandWork_par, commandWork_width]; rfl

/-- A row fits its stride. -/
theorem State.rowBytes_le_rowStride (s : State) (p : Params) : s.rowBytes p ≤ s.rowStride p :=
  le_roundUp _ s.platform.vw_pos

/-- Data byte `o` of row `row` of a runnable command that overlaps nothing. -/
theorem exec_dataByte {i : Instr} {s : State} (h : s.Runnable i) (hn : s.NoOverlap (commandParams i).1 (s.rows i))
    {row o : Nat} (hr : row < s.rows i) (ho : o < s.rowBytes (commandParams i).1) :
    ((commandWork i s).complete (commandUpd i s) s).byteAt (s.destByte (s.rowStride (commandParams i).1 * row + o)) =
      (commandWork i s).dataByte s row o := by
  have hc : ¬ lacksCapacity i s := mt (lacksCapacity_iff i s).mp (not_not.mpr h.2.1)
  have hle := s.rowBytes_le_rowStride (commandParams i).1
  have hlt : s.rowStride (commandParams i).1 * row + o < (commandWork i s).total := by
    rw [← State.total_eq]
    have : s.rowStride (commandParams i).1 * (row + 1) ≤ s.rowStride (commandParams i).1 * s.rows i :=
      Nat.mul_le_mul_left _ hr
    rw [Nat.mul_succ] at this
    unfold State.total
    omega
  have hat := Job.byteAt_complete_at (commandWork i s) (commandUpd i s) s (commandWork_total_le hc) hlt
  rw [commandWork_dst] at hat
  unfold State.destByte
  rw [hat, ← commandWork_stride]
  exact Job.outByte_data (commandWork_apart hn) s (by rwa [commandWork_height]) (by rwa [commandWork_rowBytes])
    (by rwa [commandWork_rowBytes, commandWork_stride])

/-- The work a reset cuts short is the work of the command. -/
theorem commandJob_eq {cmd : CmdWord} {i : Instr} {s : State} (hd : decode cmd = .ok i) (hc : s.HasCapacity i) :
    commandJob cmd s = some (commandWork i s) := by
  have h := mt (lacksCapacity_iff i s).mp (not_not.mpr hc)
  unfold lacksCapacity commandWork at h
  unfold commandJob commandWork
  simp only [hd]
  split
  · next h2 =>
    simp only [h2, if_true, true_and, not_lt] at h
    rw [if_neg (by omega)]
  · rfl

end Sys2Proof.Machine
end

