-- ==== Sys2Proof/Laws/Host.lean ====
section
/-! SUPPORT. What a step does with the next host access, and what a reset during a command cuts short. -/

namespace Sys2Proof.Machine

/-- A step performs the next pending host access, with that access taken. -/
theorem step_cons {s : State} {op : HostOp} {rest : List HostOp} (h : s.host = op :: rest) :
    step s = hostAccess op { s with host := rest } := by
  simp only [step, nextAccess, h]

/-- A word written to `CMD` that is no command. -/
theorem execute_illegal {cmd : CmdWord} (h : ∀ i, decode cmd ≠ .ok i) (s : State) :
    execute cmd s = .next (raise .illegalCommand s) := by
  unfold execute
  cases hd : decode cmd with
  | error e => rfl
  | ok i => exact absurd hd (h i)

/-- A word written to `CMD` that is a command. -/
theorem execute_legal {cmd : CmdWord} {i : Instr} (h : decode cmd = .ok i) (s : State) : execute cmd s = exec i s := by
  simp only [execute, h]

/-- The memory work of a word: none where it is no command. -/
theorem commandJob_illegal {cmd : CmdWord} (h : ∀ i, decode cmd ≠ .ok i) (s : State) : commandJob cmd s = none := by
  unfold commandJob
  cases hd : decode cmd with
  | error e => rfl
  | ok i => exact absurd hd (h i)

/-- The memory work of a word: none where it asks for more bytes than the host declared. -/
theorem commandJob_lacksCapacity {cmd : CmdWord} {i : Instr} {s : State} (hd : decode cmd = .ok i)
    (hc : ¬ s.HasCapacity i) : commandJob cmd s = none := by
  obtain ⟨h1, h2⟩ := (lacksCapacity_iff i s).mpr hc
  simp only [commandWork, h1, if_true] at h2
  simp [commandJob, hd, h1, h2]

/-- Everything a reset during a word can do. -/
theorem resetDuring_cases (cmd : CmdWord) (s : State) :
    (commandJob cmd s = none ∧ resetDuring cmd s = .next (resetInput s)) ∨
    (∃ j, commandJob cmd s = some j ∧ j.touchesWindow s.platform = true ∧
      resetDuring cmd s = .refused .registerWindowTouched) ∨
    (∃ j, commandJob cmd s = some j ∧ j.touchesWindow s.platform = false ∧
      resetDuring cmd s = .next (resetInput (j.scribble s))) := by
  unfold resetDuring
  cases commandJob cmd s with
  | none => simp
  | some j => cases h : j.touchesWindow s.platform <;> simp [h]

end Sys2Proof.Machine
end

