-- ==== Sys2Proof/Laws/PerInstr.lean ====
section
/-! SUPPORT. Families of statements made per command, one lemma for each constructor of `Instr`. -/

namespace Sys2Proof.Laws.EncodedFields

open Sys2Proof.Machine

/-- The word of a well-formed command carries its parameters in the fields of format `C` (`30_encoding.md` R80 to R85),
with the reserved bits 0. -/
def Statement (i : Instr) : Prop :=
  i.wf = true →
    fieldReserved (encode i) = 0 ∧
    (fieldCH (encode i)).toNat + 1 = (commandParams i).1.ch.count ∧
    fieldW (encode i) = (commandParams i).1.wide ∧
    fieldDRV (encode i) = (commandParams i).2 ∧
    fieldBITS (encode i) = (commandParams i).1.bits ∧
    fieldSWAP (encode i) = (commandParams i).1.swap

theorem row1x8 (swap : Bool) : Statement (.row1x8 swap) := by
  intro _; cases swap <;> decide

theorem row2x8 (swap : Bool) : Statement (.row2x8 swap) := by
  intro _; cases swap <;> decide

theorem row3x8 (swap : Bool) : Statement (.row3x8 swap) := by
  intro _; cases swap <;> decide

theorem row4x8 (swap : Bool) : Statement (.row4x8 swap) := by
  intro _; cases swap <;> decide

/-- The bounds a well-formed depth meets. -/
theorem depth_bounds {bits : Nat} (h : depthInRange bits = true) : 8 ≤ bits ∧ bits ≤ 16 := by
  simpa [depthInRange] using h

theorem row1x16 (bits : Nat) (swap : Bool) : Statement (.row1x16 bits swap) := by
  intro h
  obtain ⟨h1, h2⟩ := depth_bounds h
  interval_cases bits <;> cases swap <;> decide

theorem row2x16 (bits : Nat) (swap : Bool) : Statement (.row2x16 bits swap) := by
  intro h
  obtain ⟨h1, h2⟩ := depth_bounds h
  interval_cases bits <;> cases swap <;> decide

theorem row3x16 (bits : Nat) (swap : Bool) : Statement (.row3x16 bits swap) := by
  intro h
  obtain ⟨h1, h2⟩ := depth_bounds h
  interval_cases bits <;> cases swap <;> decide

theorem row4x16 (bits : Nat) (swap : Bool) : Statement (.row4x16 bits swap) := by
  intro h
  obtain ⟨h1, h2⟩ := depth_bounds h
  interval_cases bits <;> cases swap <;> decide

theorem xform8 (ch : Channels) (swap : Bool) : Statement (.xform8 ch swap) := by
  intro _; cases ch <;> cases swap <;> decide

theorem xform16 (ch : Channels) (bits : Nat) (swap : Bool) : Statement (.xform16 ch bits swap) := by
  intro h
  obtain ⟨h1, h2⟩ := depth_bounds h
  interval_cases bits <;> cases ch <;> cases swap <;> decide

end Sys2Proof.Laws.EncodedFields
end

