-- ==== Sys2Proof/Tests/Slice0.lean ====
section
/-! SUPPORT. Tests of single steps against the vectors of `95_test_vectors.md`, and for each statement with hypotheses a
concrete state and operands that meet them. -/

namespace Sys2Proof.Tests

open Sys2Proof.Machine

/-! ### Helpers -/

/-- The next state, if the outcome is one. -/
def nextOf : Host.Outcome State Fault Refusal → Option State
  | .next t => some t
  | _ => none

/-- The refusal, if the outcome is one. -/
def refusalOf : Host.Outcome State Fault Refusal → Option Refusal
  | .refused r => some r
  | _ => none

theorem exists_next {o : Host.Outcome State Fault Refusal} (h : (nextOf o).isSome = true) : ∃ t, o = .next t := by
  cases o with
  | next t => exact ⟨t, rfl⟩
  | fault f => cases f
  | refused r => simp [nextOf] at h

/-- Store a list of bytes from an address on. -/
def put (a : Nat) : List Nat → State → State
  | [], s => s
  | b :: rest, s => put (a + 1) rest (s.storeByte (BitVec.ofNat 64 a) (BitVec.ofNat 8 b))

/-- `n` bytes from an address on. -/
def get (s : State) (a n : Nat) : List Nat := (List.range n).map fun k => (s.byteAt (BitVec.ofNat 64 (a + k))).toNat

/-- The state after the host writes a word to `CMD`. -/
def after (w : Nat) (s : State) : Option State := nextOf (step (s.withFetchWord 32 w))

/-- The bytes at `DST` and `STATUS` after a word. -/
def result (w n : Nat) (s : State) : Option (List Nat × Nat) :=
  (after w s).map fun t => (get t s.regs.dst.toNat n, t.regs.status.toNat)

/-- A freshly reset engine with these registers. -/
def engine (r : Regs) : State := { State.reset with regs := r }

/-- Registers for one row: three or four planes 0x100 apart, destination at 0x2000. -/
def rowRegs (width : Nat) : Regs :=
  { Regs.reset with
    src0 := 0x1000, src1 := 0x1100, src2 := 0x1200, src3 := 0x1300
    dst := 0x2000, width := BitVec.ofNat 32 width }

/-- Scenario A (`95_test_vectors.md` S-A, P1), set up for XFORM and for ROW3X8. -/
def sceneA : State :=
  put 0x1200 [100, 101, 102, 103, 104] <| put 0x1100 [1, 2, 3, 4, 5] <| put 0x1000 [10, 20, 30, 40, 50] <|
    engine { rowRegs 5 with sstride0 := 5, sstride1 := 5, sstride2 := 5, dcap := 16, height := 1 }

/-- Program P2: gray and alpha, 10-bit samples, two rows. -/
def sceneP2 : State :=
  put 0x1810 [0x00, 0x01, 0xAA, 0x02, 0x01, 0x00] <| put 0x1800 [0xFF, 0x03, 0xFF, 0x03, 0x00, 0x00] <|
    put 0x1008 [0x01, 0x00, 0x34, 0x02, 0x55, 0x01] <|
    put 0x1000 [0x00, 0x00, 0xFF, 0x03, 0x00, 0x02, 0xAD, 0xDE] <|
    engine { Regs.reset with
      src0 := 0x1000, sstride0 := 8, src1 := 0x1800, sstride1 := 16, dst := 0x3000, dcap := 0x40, width := 3, height := 2 }

/-- The platform refuses accesses to this one byte. -/
def refuseByte (a : Nat) (s : State) : State :=
  { s with platform := { s.platform with refused := [⟨BitVec.ofNat 64 a, 1⟩] } }

/-- The register file is memory-mapped at `8 * n`. -/
def mapAt (n : Nat) (s : State) : State :=
  { s with platform := { s.platform with rbaseCell := some (BitVec.ofNat 61 n) } }

/-! ### Well-formedness refuses what has no word -/

theorem test_row1x16_depth7_ill_formed : (Instr.row1x16 7 false).wf = false := by decide
theorem test_row2x16_depth17_ill_formed : (Instr.row2x16 17 true).wf = false := by decide
theorem test_row3x16_depth0_ill_formed : (Instr.row3x16 0 false).wf = false := by decide
theorem test_row4x16_depth31_ill_formed : (Instr.row4x16 31 false).wf = false := by decide
theorem test_xform16_depth7_ill_formed : (Instr.xform16 .rgb 7 false).wf = false := by decide
theorem test_xform16_depth17_ill_formed : (Instr.xform16 .gray 17 true).wf = false := by decide

/-! ### Decoding: words written out from the fields of R80, reserved ++ SWAP ++ BITS ++ DRV ++ W ++ CH -/

theorem test_decode_row1x8 : decode (0b0000000000000000000000_0_01000_0_0_00 : CmdWord) = .ok (.row1x8 false) := by decide
theorem test_decode_row1x8_swap :
    decode (0b0000000000000000000000_1_01000_0_0_00 : CmdWord) = .ok (.row1x8 true) := by decide
theorem test_decode_row2x8 : decode (0b0000000000000000000000_0_01000_0_0_01 : CmdWord) = .ok (.row2x8 false) := by decide
theorem test_decode_row3x8 : decode (0b0000000000000000000000_0_01000_0_0_10 : CmdWord) = .ok (.row3x8 false) := by decide
theorem test_decode_row4x8 : decode (0b0000000000000000000000_0_01000_0_0_11 : CmdWord) = .ok (.row4x8 false) := by decide
theorem test_decode_row1x16 :
    decode (0b0000000000000000000000_1_01010_0_1_00 : CmdWord) = .ok (.row1x16 10 true) := by decide
theorem test_decode_row2x16 :
    decode (0b0000000000000000000000_0_01100_0_1_01 : CmdWord) = .ok (.row2x16 12 false) := by decide
theorem test_decode_row3x16 :
    decode (0b0000000000000000000000_1_10000_0_1_10 : CmdWord) = .ok (.row3x16 16 true) := by decide
theorem test_decode_row4x16 :
    decode (0b0000000000000000000000_0_01001_0_1_11 : CmdWord) = .ok (.row4x16 9 false) := by decide
theorem test_decode_xform8 :
    decode (0b0000000000000000000000_1_01000_1_0_11 : CmdWord) = .ok (.xform8 .rgba true) := by decide
theorem test_decode_xform16 :
    decode (0b0000000000000000000000_1_01010_1_1_01 : CmdWord) = .ok (.xform16 .grayAlpha 10 true) := by decide

/-- The illegal words of `95_test_vectors.md` section 3. -/
theorem test_decode_illegal_words :
    decode 0x00000000 = .error .depthNotEight ∧ decode 0x00000092 = .error .depthNotEight ∧
    decode 0x00000074 = .error .depthOutOfRange ∧ decode 0x00000114 = .error .depthOutOfRange ∧
    decode 0x000001F7 = .error .depthOutOfRange ∧ decode 0x00000484 = .error .reservedBits ∧
    decode 0x80000080 = .error .reservedBits ∧ decode 0xFFFFFFFF = .error .reservedBits := by decide

/-- A table word of more than 32 bits is no command. -/
theorem test_decodeTableWord :
    decodeTableWord 32 0x2AD = some (.xform16 .grayAlpha 10 true) ∧ decodeTableWord 32 0x092 = none ∧
      decodeTableWord 40 0x1000000080 = none := by decide

/-! ### The normalizer, sections 2.1 to 2.4: (bits, v, no swap, swap) -/

def normRow (r : Nat × Nat × Nat × Nat) : Bool :=
  (norm r.1 false (BitVec.ofNat 16 r.2.1)).toNat == r.2.2.1 && (norm r.1 true (BitVec.ofNat 16 r.2.1)).toNat == r.2.2.2

theorem test_norm_in_range :
    ([(8, 0x0034, 0x3434, 0x0034), (8, 0x00FF, 0xFFFF, 0x00FF), (9, 0x0001, 0x0080, 0x8000), (9, 0x01FF, 0xFFFF, 0x80FF),
      (10, 0x0234, 0x8D23, 0x008D), (10, 0x03FF, 0xFFFF, 0xC0FF), (11, 0x0234, 0x4688, 0x8046),
      (12, 0x0234, 0x2342, 0x4023), (13, 0x1234, 0x91A4, 0xA091)].all normRow) = true ∧
    ([(14, 0x1234, 0x48D1, 0xD048), (15, 0x1234, 0x2468, 0x6824), (15, 0x7FFF, 0xFFFF, 0xFEFF),
      (16, 0x1234, 0x1234, 0x3412), (16, 0x8000, 0x8000, 0x0080)].all normRow) = true := by decide

theorem test_norm_out_of_range :
    ([(8, 0xABCD, 0xEFCD, 0xABCD), (8, 0x8001, 0x8101, 0x8001), (10, 0x8001, 0x0840, 0x6000), (10, 0xABCD, 0xFBFC, 0x6AF3),
      (12, 0x8001, 0x0090, 0x1800), (12, 0xABCD, 0xBCFB, 0xDABC), (15, 0x8001, 0x0002, 0x0300),
      (15, 0xABCD, 0x579A, 0x9B57)].all normRow) = true := by decide

/-! ### ROW commands on 1-byte samples, section 4 -/

/-- 4.8: the source wraps past the top of the address space. -/
theorem test_row1x8_source_wraps :
    result 0x080 4 (put 0 [0xCC, 0xDD] <| put 0xFFFFFFFFFFFFFFFE [0xAA, 0xBB] <|
      engine { Regs.reset with src0 := 0xFFFFFFFFFFFFFFFE, dst := 0x100, width := 4 }) =
      some ([0xAA, 0xBB, 0xCC, 0xDD], 0x01) := by decide

/-- E6: a pad byte that cannot be written faults. -/
theorem test_row1x8_pad_byte_refused :
    (after 0x080 (refuseByte 0x200F <| put 0x1000 [7] <| engine (rowRegs 1))).map (·.regs.status) = some 0x31 := by decide

/-- 4.2. -/
theorem test_row2x8 :
    result 0x081 6 (put 0x1100 [0xF1, 0xF2, 0xF3] <| put 0x1000 [1, 2, 3] <| engine (rowRegs 3)) =
      some ([1, 0xF1, 2, 0xF2, 3, 0xF3], 0x01) := by decide

/-- 4.7: both sources at one address. -/
theorem test_row2x8_coinciding_sources :
    result 0x081 4 (put 0x1000 [5, 6] <| engine { rowRegs 2 with src1 := 0x1000 }) = some ([5, 5, 6, 6], 0x01) := by decide

/-- S-A with `ROW3X8`; the pad byte is free and the byte after the padded row is untouched. -/
theorem test_row3x8_scenario_A :
    result 0x082 15 sceneA = some ([10, 1, 100, 20, 2, 101, 30, 3, 102, 40, 4, 103, 50, 5, 104], 0x01) ∧
      (after 0x082 (put 0x2010 [0x5A] sceneA)).map (get · 0x2010 1) = some [0x5A] := by decide

/-- 4.6 and E7: `SWAP` and `DCAP` change nothing. -/
theorem test_row3x8_swap_ignored :
    result 0x282 15 { sceneA with regs := { sceneA.regs with dcap := 0 } } =
      some ([10, 1, 100, 20, 2, 101, 30, 3, 102, 40, 4, 103, 50, 5, 104], 0x01) := by decide

/-- S-C. -/
theorem test_row4x8_scenario_C :
    result 0x083 4 (put 0x1300 [0x44] <| put 0x1200 [0x33] <| put 0x1100 [0x22] <| put 0x1000 [0x11] <|
      engine (rowRegs 1)) = some ([0x11, 0x22, 0x33, 0x44], 0x01) := by decide

/-- 4.4. -/
theorem test_row4x8 :
    result 0x083 20 (put 0x1300 [0xC0, 0xC1, 0xC2, 0xC3, 0xC4] <| put 0x1200 [0x80, 0x81, 0x82, 0x83, 0x84] <|
      put 0x1100 [0x40, 0x41, 0x42, 0x43, 0x44] <| put 0x1000 [0, 1, 2, 3, 4] <| engine (rowRegs 5)) =
      some ([0x00, 0x40, 0x80, 0xC0, 0x01, 0x41, 0x81, 0xC1, 0x02, 0x42, 0x82, 0xC2, 0x03, 0x43, 0x83, 0xC3,
        0x04, 0x44, 0x84, 0xC4], 0x01) := by decide

/-! ### ROW commands on 2-byte samples, section 5 -/

/-- S-B. -/
theorem test_row1x16_scenario_B :
    result 0x2A4 2 (put 0x1000 [0xFF, 0x03] <| engine (rowRegs 1)) = some ([0xFF, 0xC0], 0x01) := by decide

/-- 5.1, at an odd source (5.7). -/
theorem test_row1x16 :
    result 0x0A4 6 (put 0x1001 [0xFF, 0x03, 0x01, 0x00, 0x34, 0x02] <| engine { rowRegs 3 with src0 := 0x1001 }) =
      some ([0xFF, 0xFF, 0x40, 0x00, 0x23, 0x8D], 0x01) := by decide

/-- 5.2. -/
theorem test_row2x16 :
    result 0x0C5 8 (put 0x1100 [0x00, 0x08, 0x34, 0x02] <| put 0x1000 [0xFF, 0x0F, 0x01, 0x00] <| engine (rowRegs 2)) =
      some ([0xFF, 0xFF, 0x08, 0x80, 0x10, 0x00, 0x42, 0x23], 0x01) := by decide

/-- 5.3, 16 bits with swap. -/
theorem test_row3x16_swap :
    result 0x306 6 (put 0x1200 [0xFF, 0x00] <| put 0x1100 [0xCD, 0xAB] <| put 0x1000 [0x34, 0x12] <| engine (rowRegs 1)) =
      some ([0x12, 0x34, 0xAB, 0xCD, 0x00, 0xFF], 0x01) := by decide

/-- 5.3, 14 bits without swap: slots FFFF 8002 5555 0004 0000 C003 48D1 AAAA 03FC. -/
theorem test_row3x16 :
    result 0x0E6 18 (put 0x1200 [0x55, 0x15, 0x00, 0x30, 0xFF, 0x00] <| put 0x1100 [0x00, 0x20, 0x00, 0x00, 0xAA, 0x2A] <|
      put 0x1000 [0xFF, 0x3F, 0x01, 0x00, 0x34, 0x12] <| engine (rowRegs 3)) =
      some ([0xFF, 0xFF, 0x02, 0x80, 0x55, 0x55, 0x04, 0x00, 0x00, 0x00, 0x03, 0xC0, 0xD1, 0x48, 0xAA, 0xAA,
        0xFC, 0x03], 0x01) := by decide

/-- 5.4, 9 bits without swap. -/
theorem test_row4x16 :
    result 0x097 8 (put 0x1300 [0x34, 0x00] <| put 0x1200 [0x01, 0x00] <| put 0x1100 [0x00, 0x01] <|
      put 0x1000 [0xFF, 0x01] <| engine (rowRegs 1)) =
      some ([0xFF, 0xFF, 0x40, 0x80, 0x80, 0x00, 0x0D, 0x1A], 0x01) := by decide

/-- 5.4, 16 bits with swap. -/
theorem test_row4x16_swap :
    result 0x307 16 (put 0x1300 [0x08, 0x07, 0x18, 0x17] <| put 0x1200 [0x06, 0x05, 0x16, 0x15] <|
      put 0x1100 [0x04, 0x03, 0x14, 0x13] <| put 0x1000 [0x02, 0x01, 0x12, 0x11] <| engine (rowRegs 2)) =
      some ([0x01, 0x02, 0x03, 0x04, 0x05, 0x06, 0x07, 0x08, 0x11, 0x12, 0x13, 0x14, 0x15, 0x16, 0x17, 0x18],
        0x01) := by decide

/-! ### XFORM, section 6 and programs P1, P2 -/

/-- P1. -/
theorem test_xform8_scenario_A :
    (after 0x08A sceneA).map (fun t => (get t 0x2000 15, t.regs.status, t.regs.dstride, t.regs.dbytes)) =
      some ([10, 1, 100, 20, 2, 101, 30, 3, 102, 40, 4, 103, 50, 5, 104], 0x01, 16, 16) := by decide

/-- 6.6: a zero source stride reads one row twice. -/
theorem test_xform8_zero_stride :
    (after 0x088 (put 0x1000 [7, 8, 9] <| engine { rowRegs 3 with height := 2, dcap := 32 })).map
      (fun t => (get t 0x2000 3, get t 0x2010 3, t.regs.dstride, t.regs.dbytes)) =
      some ([7, 8, 9], [7, 8, 9], 16, 32) := by decide

/-- P2 with swap: the bytes `AD DE` between the rows do not appear. -/
theorem test_xform16_program_P2 :
    (after 0x2AD sceneP2).map (fun t => (get t 0x3000 12, get t 0x3010 12, t.regs.dstride, t.regs.dbytes)) =
      some ([0x00, 0x00, 0xFF, 0xC0, 0xFF, 0xC0, 0xFF, 0xC0, 0x80, 0x00, 0x00, 0x00],
        [0x00, 0x40, 0x40, 0x00, 0x8D, 0x00, 0xAA, 0x80, 0x55, 0x40, 0x00, 0x40], 16, 32) := by decide

/-- P2 without swap. -/
theorem test_xform16_program_P2_no_swap :
    (after 0x0AD sceneP2).map (fun t => (get t 0x3000 12, get t 0x3010 12)) =
      some ([0x00, 0x00, 0xFF, 0xFF, 0xFF, 0xFF, 0xFF, 0xFF, 0x20, 0x80, 0x00, 0x00],
        [0x40, 0x00, 0x10, 0x40, 0x23, 0x8D, 0xAA, 0xAA, 0x55, 0x55, 0x40, 0x00]) := by decide

/-! ### Errors, section 8 -/

/-- E2: legality is checked before capacity. -/
theorem test_E2_illegal_before_capacity :
    after 0x48B (engine { rowRegs 1 with height := 1 }) =
      some (engine { rowRegs 1 with height := 1, status := 0x11 }) := by decide

/-- E3 and E4: capacity is checked before any access, and nothing but `STATUS` changes. -/
theorem test_E4_capacity_before_bus :
    after 0x08A (refuseByte 0x2003 { sceneA with regs := { sceneA.regs with dcap := 15 } }) =
      some (refuseByte 0x2003 { sceneA with regs := { sceneA.regs with dcap := 15, status := 0x21 } }) := by decide

/-- E5: the sources are unchanged. -/
theorem test_E5_bus_fault :
    (after 0x08A (refuseByte 0x2003 sceneA)).map
      (fun t => (t.regs.status, t.regs.dstride, t.regs.dbytes, get t 0x1000 5, get t 0x1200 5)) =
      some (0x31, 0, 0, [10, 20, 30, 40, 50], [100, 101, 102, 103, 104]) := by decide

/-- 6.3: the total is not reduced modulo `2 ^ 64`. -/
theorem test_total_is_unbounded :
    (after 0x10F (engine { Regs.reset with width := 0xFFFFFFFF, height := 0xFFFFFFFF, dcap := 0xFFFFFFFFFFFFFFFF })).map
      (·.regs.status) = some 0x21 := by decide

/-- 6.4: zero height. -/
theorem test_zero_height :
    after 0x08A (engine { rowRegs 5 with dcap := 0 }) =
      some (engine { rowRegs 5 with dcap := 0, status := 0x01, dstride := 16, dbytes := 0 }) := by decide

/-- 6.1: strides for `VW` 16, 32 and 64. -/
theorem test_strides :
    roundUp (5 * 1 * 4) 16 = 32 ∧ roundUp (130 * 2 * 4) 16 = 1040 ∧ roundUp (17 * 1 * 3) 32 = 64 ∧
      roundUp (17 * 2 * 4) 64 = 192 ∧ roundUp (16 * 1 * 3) 16 = 48 ∧ roundUp 0 16 = 0 := by decide

/-- R230: a reset that cuts short an XFORM without capacity resets the registers and changes no memory. -/
theorem test_reset_during_command_without_access :
    (nextOf (step { sceneA with regs := { sceneA.regs with dcap := 15 }, host := [.resetDuring 0x08A] })).map
      (fun t => (decide (t.regs = Regs.reset), decide (t.mem = sceneA.mem), t.host)) = some (true, true, []) := by decide

/-- U5: a destination in the register window is refused. -/
theorem test_window_destination_refused :
    refusalOf (step ((mapAt 0x400 sceneA).withFetchWord 32 0x082)) = some .registerWindowTouched := by decide

/-- U2: of two bytes copied one place up only the byte whose source is outside the write set would be determined, and here
none is, so both bytes are free. -/
theorem test_overlap_is_free :
    (after 0x080 (put 0x1000 [1, 2] <| engine { rowRegs 2 with dst := 0x1001 })).map
      (fun t => (t.regs.status, t.byteAt 0x1000, decide (t.draws = 16))) = some (0x01, 1, true) := by decide

/-! ### Register accesses, section 7 -/

/-- Steps 3 to 7. -/
theorem test_register_writes :
    (nextOf (regWrite .width 0x100000005 State.reset)).map (·.regs.read .width) = some 5 ∧
    (nextOf (regWrite .height 0xFFFFFFFFFFFFFFFF State.reset)).map (·.regs.read .height) = some 0xFFFFFFFF ∧
    (nextOf (regWrite .src3 0xFFFFFFFFFFFFFFFF State.reset)).map (·.regs.read .src3) = some 0xFFFFFFFFFFFFFFFF ∧
    nextOf (regWrite .status 0xFF State.reset) = some State.reset ∧
    nextOf (regWrite .dstride 7 State.reset) = some State.reset := by decide

/-- Step 9: bits 63:32 of a `CMD` write are dropped, and the word is illegal. -/
theorem test_cmd_write_uses_low_word :
    (nextOf (regWrite .cmd 0x100000484 State.reset)).map (fun t => (t.regs.read .status, t.regs.read .cmd)) =
      some (0x11, 0) := by decide

/-- R62: the cell of `DCAP` is at `RBASE + 0x48`; an access of 4 bytes has no meaning (U7). -/
theorem test_mapped_registers :
    (nextOf (mmioWrite 0x2048 8 7 (mapAt 0x400 State.reset))).map (·.regs.dcap) = some 7 ∧
    refusalOf (mmioWrite 0x2048 4 7 (mapAt 0x400 State.reset)) = some .undefinedRegisterAccess ∧
    refusalOf (mmioRead 0x2080 8 (mapAt 0x400 State.reset)) = some .undefinedRegisterAccess ∧
    refusalOf (memRead 0x207F (mapAt 0x400 State.reset)) = some .undefinedRegisterAccess := by decide

/-! ### The lane tables of R138 and the script lines of P1 -/

theorem test_lane_tables_16 :
    permTable 16 0 = [0, 11, 6, 1, 12, 7, 2, 13, 8, 3, 14, 9, 4, 15, 10, 5] ∧
    permTable 16 1 = [5, 0, 11, 6, 1, 12, 7, 2, 13, 8, 3, 14, 9, 4, 15, 10] ∧
    permTable 16 2 = [10, 5, 0, 11, 6, 1, 12, 7, 2, 13, 8, 3, 14, 9, 4, 15] ∧
    blendSelector 16 1 = [1, 2, 0, 1, 2, 0, 1, 2, 0, 1, 2, 0, 1, 2, 0, 1] := by decide

theorem test_lane_tables_8 :
    permTable 8 0 = [0, 3, 6, 1, 4, 7, 2, 5] ∧ permTable 8 1 = [5, 0, 3, 6, 1, 4, 7, 2] ∧
    permTable 8 2 = [2, 5, 0, 3, 6, 1, 4, 7] ∧ blendSelector 8 2 = [1, 2, 0, 1, 2, 0, 1, 2] := by decide

theorem test_script_of_P1 :
    assemble [.plane 0 0x1000 5, .dest 0x2000 16, .dims 5 1, .xform .rgb .w8 none false, .rd .status] =
      some [.regWrite .src0 0x1000, .regWrite .sstride0 5, .regWrite .dst 0x2000, .regWrite .dcap 16, .regWrite .width 5,
        .regWrite .height 1, .regWrite .cmd 0x8A, .regRead .status] := by decide

/-! ### Witnesses: for each statement with hypotheses, concrete values that meet them all -/

/-- The parameters of the commands run on `sceneA` and `sceneP2`. -/
def pA : Params := ⟨.rgb, false, 8, false⟩
def pB : Params := ⟨.grayAlpha, true, 10, true⟩

/-- `sceneA` on a platform that refuses the byte after the padded row and maps its registers elsewhere. -/
def sceneA' : State := mapAt 0x10000 (refuseByte 0x2010 sceneA)

/-- A 2-channel row whose destination starts at its second source. -/
def pGA : Params := ⟨.grayAlpha, false, 8, false⟩
def scenePartialOverlap : State := put 0x1000 [1, 2] <| engine { rowRegs 2 with src0 := 0x0FF0, src1 := 0x1001, dst := 0x1001 }

/-- `sceneA` on a platform with `VW = 2`. -/
def sceneNarrow : State := { sceneA with platform := { sceneA.platform with vwLog := 0 } }

theorem not_inWriteSet {s : State} {i : Instr} {a : Addr} (h : ∀ n < s.total i, a ≠ s.destByte n) : ¬ s.InWriteSet i a :=
  fun ⟨n, hn, he⟩ => h n hn he

theorem not_inReadSet {s : State} {i : Instr} {a : Addr}
    (h : ∀ row < s.rows i, ∀ c < (commandParams i).1.ch.count, ∀ k < s.planeRowBytes (commandParams i).1,
      a ≠ s.planeByte row c k) : ¬ s.InReadSet i a :=
  fun ⟨row, hr, c, hc, k, hk, he⟩ => h row hr c hc k hk he

theorem witness_DecodeInvertsEncode : (Instr.row1x16 8 false).wf = true ∧ (Instr.xform16 .rgba 16 true).wf = true := by
  decide

theorem witness_EncodeInvertsDecode : decode 0x2A4 = .ok (.row1x16 10 true) := by decide

theorem witness_OpcodeRowsPartitionLegalWords :
    decode 0x2A4 = .ok (.row1x16 10 true) ∧ decode 0x092 = .error .depthNotEight := by decide

/-- The depths at both ends, and samples at both ends of their range. -/
theorem witness_normalizer_depths :
    (8 ≤ 8 ∧ 8 ≤ 16 ∧ (0xFF : Slot).toNat < 2 ^ 8) ∧ (8 ≤ 16 ∧ 16 ≤ 16 ∧ (0xFFFF : Slot).toNat < 2 ^ 16) ∧
      (0x34 : Slot).toNat < 256 := by decide

theorem witness_Row8InterleavesSamples :
    sceneA'.OffWindow pA 1 ∧ sceneA'.Accepted pA 1 ∧ sceneA'.NoOverlap pA 1 ∧
      4 < sceneA'.regs.width.toNat ∧ 2 < Channels.rgb.count ∧
      sceneA'.regs.width.toNat * Channels.rgb.count ≤ 15 ∧
      15 < roundUp (sceneA'.regs.width.toNat * Channels.rgb.count) sceneA'.platform.vw := by decide

/-- The conditions of the 16-bit ROW commands, with the last pixel, the last channel and the first pad byte. -/
theorem witness_Row16InterleavesNormalizedSamples :
    8 ≤ 10 ∧ 10 ≤ 16 ∧ sceneP2.OffWindow pB 1 ∧ sceneP2.Accepted pB 1 ∧ sceneP2.NoOverlap pB 1 ∧
      2 < sceneP2.regs.width.toNat ∧ 1 < Channels.grayAlpha.count ∧ 2 * sceneP2.regs.width.toNat * Channels.grayAlpha.count ≤ 12 ∧
      12 < roundUp (2 * sceneP2.regs.width.toNat * Channels.grayAlpha.count) sceneP2.platform.vw := by decide

/-- The frame of a ROW command: one that completes and one that faults, and an address outside the row. -/
theorem witness_RowCommandFrame :
    (∃ t, exec (.row3x8 false) sceneA' = .next t) ∧ (∃ t, exec (.row3x8 false) (refuseByte 0x2003 sceneA) = .next t) ∧
      (commandParams (.row3x8 false)).2 = false ∧
      ∀ n < roundUp (pA.rowBytes sceneA'.regs.width.toNat) sceneA'.platform.vw,
        (0x2010 : Addr) ≠ sceneA'.regs.dst + BitVec.ofNat 64 n :=
  ⟨exists_next (by decide), exists_next (by decide), by decide, by decide⟩

theorem witness_ZeroWidthRowWritesOnlyStatus : 8 ≤ 16 ∧ 16 ≤ 16 ∧ (engine (rowRegs 0)).regs.width = 0 := by decide

theorem witness_Row16SamplesAreRecoverable :
    8 ≤ 10 ∧ 10 ≤ 16 ∧ sceneP2.OffWindow pB 1 ∧ sceneP2.Accepted pB 1 ∧ sceneP2.NoOverlap pB 1 ∧
      (sceneP2.slotAt (sceneP2.regs.src 1 + BitVec.ofNat 64 (2 * 0))).toNat < 2 ^ 10 := by decide

/-- Rows whose write set covers their second source, where pixel 1 of the first source meets the conditions of its clause,
for each sample width. -/
theorem witness_OverlappingCommandCompletes :
    (scenePartialOverlap.Runnable (.row2x8 false) ∧ ¬ scenePartialOverlap.NoOverlap pGA 1 ∧
      1 < scenePartialOverlap.regs.width.toNat ∧
      ¬ scenePartialOverlap.InWriteSet (.row2x8 false) (scenePartialOverlap.planeByte 0 0 1) ∧
      ¬ scenePartialOverlap.InReadSet (.row2x8 false) (scenePartialOverlap.destByte (0 * 16 + (1 * 2 + 0)))) ∧
    scenePartialOverlap.Runnable (.row2x16 8 true) ∧
      ¬ scenePartialOverlap.InWriteSet (.row2x16 8 true) (scenePartialOverlap.planeByte 0 0 (2 * 1)) ∧
      ¬ scenePartialOverlap.InWriteSet (.row2x16 8 true) (scenePartialOverlap.planeByte 0 0 (2 * 1) + 1) ∧
      ¬ scenePartialOverlap.InReadSet (.row2x16 8 true) (scenePartialOverlap.destByte (0 * 16 + 2 * (1 * 2 + 0))) ∧
      ¬ scenePartialOverlap.InReadSet (.row2x16 8 true) (scenePartialOverlap.destByte (0 * 16 + 2 * (1 * 2 + 0)) + 1) :=
  ⟨⟨by decide, by decide, by decide, not_inWriteSet (by decide), not_inReadSet (by decide)⟩, by decide,
    not_inWriteSet (by decide), not_inWriteSet (by decide), not_inReadSet (by decide), not_inReadSet (by decide)⟩

theorem witness_Xform8TransformsEveryRow :
    roundUp (sceneA'.regs.width.toNat * 1 * Channels.rgb.count) sceneA'.platform.vw * sceneA'.regs.height.toNat ≤
        sceneA'.regs.dcap.toNat ∧
      sceneA'.OffWindow pA sceneA'.regs.height.toNat ∧ sceneA'.Accepted pA sceneA'.regs.height.toNat ∧
      sceneA'.NoOverlap pA sceneA'.regs.height.toNat ∧ 0 < sceneA'.regs.height.toNat := by decide

theorem witness_Xform16TransformsEveryRow :
    8 ≤ 10 ∧ 10 ≤ 16 ∧
      roundUp (sceneP2.regs.width.toNat * 2 * Channels.grayAlpha.count) sceneP2.platform.vw * sceneP2.regs.height.toNat ≤
        sceneP2.regs.dcap.toNat ∧
      sceneP2.OffWindow pB sceneP2.regs.height.toNat ∧ sceneP2.Accepted pB sceneP2.regs.height.toNat ∧
      sceneP2.NoOverlap pB sceneP2.regs.height.toNat ∧ 1 < sceneP2.regs.height.toNat := by decide

/-- XFORM completing, lacking capacity, and faulting; the first also for the statements on the declared buffer and on the
result registers. -/
theorem witness_XformFrame :
    (commandParams (.xform8 .rgb false)).2 = true ∧ (∃ t, exec (.xform8 .rgb false) sceneA' = .next t) ∧
      (∃ t, exec (.xform8 .rgb false) { sceneA with regs := { sceneA.regs with dcap := 15 } } = .next t) ∧
      ∃ t, exec (.xform8 .rgb false) (refuseByte 0x2003 sceneA) = .next t :=
  ⟨by decide, exists_next (by decide), exists_next (by decide), exists_next (by decide)⟩

/-- One byte too few, exactly enough, and a ROW command. -/
theorem witness_AllocationFailureExactlyWhenTotalExceedsDcap :
    ({ sceneA with regs := { sceneA.regs with dcap := 15 } } : State).regs.dcap.toNat <
        ({ sceneA with regs := { sceneA.regs with dcap := 15 } } : State).total (.xform8 .rgb false) ∧
      sceneA.total (.xform8 .rgb false) = sceneA.regs.dcap.toNat ∧
      (∃ t, exec (.xform8 .rgb false) sceneA = .next t) ∧ ∃ t, exec (.row3x8 false) sceneA = .next t :=
  ⟨by decide, by decide, exists_next (by decide), exists_next (by decide)⟩

theorem witness_EmptyImageTouchesNoMemory :
    (commandParams (.xform16 .rgba 16 true)).2 = true ∧ (Instr.xform16 .rgba 16 true).wf = true ∧
      (engine (rowRegs 5)).regs.height = 0 ∧ (engine { rowRegs 0 with height := 7 }).regs.width = 0 := by decide

theorem witness_XformStaysInDeclaredBuffer :
    (∃ t, exec (.xform8 .rgb false) sceneA = .next t) ∧ ∀ n < sceneA.regs.dcap.toNat, (0x2010 : Addr) ≠ sceneA.destByte n :=
  ⟨exists_next (by decide), by decide⟩

theorem witness_DestinationRowsAreDisjoint :
    (commandParams (.xform16 .grayAlpha 10 true)).2 = true ∧ sceneP2.HasCapacity (.xform16 .grayAlpha 10 true) ∧
      0 < sceneP2.regs.height.toNat ∧ 1 < sceneP2.regs.height.toNat ∧ 15 < sceneP2.rowStride pB := by decide

theorem witness_XformDoesEachRowAsRowCommand :
    sceneA.Runnable (.xform8 .rgb false) ∧ sceneA.NoOverlap pA (sceneA.rows (.xform8 .rgb false)) ∧
      sceneP2.Runnable (.xform16 .grayAlpha 10 true) ∧
      sceneP2.NoOverlap pB (sceneP2.rows (.xform16 .grayAlpha 10 true)) :=
  ⟨by decide, by decide, by decide, by decide⟩

theorem not_decodes_of_error {w : CmdWord} {e : DecodeError} (h : decode w = .error e) (i : Instr) : decode w ≠ .ok i := by
  rw [h]; simp

/-- The illegal word of E1, the same with bits 63:32 set in the value written, and the write as the next host access. -/
theorem witness_IllegalCommandChangesOnlyStatus :
    (∀ i, decode 0x092 ≠ .ok i) ∧ (∀ i, decode ((0x100000092 : BitVec 64).setWidth 32) ≠ .ok i) ∧
      ({ sceneA with host := [.regWrite .cmd 0x100000092] } : State).host = .regWrite .cmd 0x100000092 :: [] :=
  ⟨not_decodes_of_error (e := .depthNotEight) (by decide), not_decodes_of_error (e := .depthNotEight) (by decide), rfl⟩

/-- Accesses that are accepted, and E5's that are not; both off the window. -/
theorem witness_BusFaultExactlyWhenAccessRefused :
    (Instr.xform8 .rgb false).wf = true ∧ sceneA'.HasCapacity (.xform8 .rgb false) ∧
      sceneA'.OffWindow pA (sceneA'.rows (.xform8 .rgb false)) ∧
      sceneA'.NoOverlap pA (sceneA'.rows (.xform8 .rgb false)) ∧
      (refuseByte 0x2003 sceneA).HasCapacity (.xform8 .rgb false) ∧
      (refuseByte 0x2003 sceneA).OffWindow pA ((refuseByte 0x2003 sceneA).rows (.xform8 .rgb false)) ∧
      (refuseByte 0x2003 sceneA).platform.memOK ((refuseByte 0x2003 sceneA).destByte 3) = false ∧
      (refuseByte 0x2003 sceneA).platform.memOK ((refuseByte 0x2003 sceneA).destByte 4) = true := by decide

/-- An illegal word, an XFORM without capacity, one that the platform refuses, and one that completes. -/
theorem witness_StatusReportsFirstFailedCheck :
    (∃ t, execute 0x092 sceneA = .next t) ∧
    (decode 0x08A = .ok (.xform8 .rgb false) ∧
      ¬ ({ sceneA with regs := { sceneA.regs with dcap := 15 } } : State).HasCapacity (.xform8 .rgb false) ∧
      ∃ t, execute 0x08A { sceneA with regs := { sceneA.regs with dcap := 15 } } = .next t) ∧
    ((refuseByte 0x2003 sceneA).HasCapacity (.xform8 .rgb false) ∧
      (refuseByte 0x2003 sceneA).InWriteSet (.xform8 .rgb false) 0x2003 ∧
      (refuseByte 0x2003 sceneA).platform.memOK 0x2003 = false ∧
      ∃ t, execute 0x08A (refuseByte 0x2003 sceneA) = .next t) ∧
    (sceneA.HasCapacity (.xform8 .rgb false) ∧ (∀ a, sceneA.platform.memOK a = true) ∧
      ∃ t, execute 0x08A sceneA = .next t) :=
  ⟨exists_next (by decide), ⟨by decide, by decide, exists_next (by decide)⟩,
    ⟨by decide, ⟨3, by decide, by decide⟩, by decide, exists_next (by decide)⟩,
    ⟨by decide, fun _ => rfl, exists_next (by decide)⟩⟩

/-- Also for the statements that no command writes the host's registers and that a command ends in one of four ways. -/
theorem witness_CommandEndsInOneOfFourWays :
    (∃ t, execute 0x092 sceneA = .next t) ∧ (∃ t, execute 0x082 sceneA = .next t) ∧ Reg.height.index < 12 :=
  ⟨exists_next (by decide), exists_next (by decide), by decide⟩

theorem witness_SourcesAreNeverWritten :
    sceneA.NoOverlap pA (sceneA.rows (.xform8 .rgb false)) ∧ (∃ t, exec (.xform8 .rgb false) sceneA = .next t) ∧
      sceneA.InReadSet (.xform8 .rgb false) 0x1204 :=
  ⟨by decide, exists_next (by decide), 0, by decide, 2, by decide, 4, by decide, by decide⟩

/-- A read set and a write set that touch the window. -/
theorem witness_WindowAccessIsRefused :
    (Instr.row3x8 false).wf = true ∧ (mapAt 0x400 sceneA).HasCapacity (.row3x8 false) ∧
      (mapAt 0x400 sceneA).InWriteSet (.row3x8 false) 0x2000 ∧ (mapAt 0x400 sceneA).platform.inWindow 0x2000 = true ∧
      (mapAt 0x200 sceneA).InReadSet (.row3x8 false) 0x1000 ∧ (mapAt 0x200 sceneA).platform.inWindow 0x1000 = true :=
  ⟨by decide, by decide, ⟨0, by decide, by decide⟩, by decide, ⟨0, by decide, 0, by decide, 0, by decide, by decide⟩,
    by decide⟩

/-- A memory that differs in the destination only. -/
theorem witness_ResultIgnoresOldDestination :
    sceneA.Runnable (.row3x8 false) ∧ sceneA.NoOverlap pA (sceneA.rows (.row3x8 false)) ∧
      ∀ a, ¬ sceneA.InWriteSet (.row3x8 false) a →
        { sceneA with mem := (put 0x2000 [0x5A] sceneA).mem }.byteAt a = sceneA.byteAt a := by
  refine ⟨by decide, by decide, fun a ha => ?_⟩
  refine State.byteAt_storeByte_other sceneA (0x5A : Byte) (a := 0x2000) (a' := a) fun h => ha ⟨0, by decide, ?_⟩
  rw [h]
  decide

/-- Registers that differ in `STATUS`, in an unused plane and, for the ROW command, in `DCAP`, `HEIGHT` and a stride. -/
theorem witness_ResultIgnoresUnusedRegisters :
    (∀ c < Channels.rgb.count, { sceneA.regs with src3 := 9, status := 0x31, dbytes := 5 }.src c = sceneA.regs.src c) ∧
      (∀ c < Channels.rgb.count, { sceneA.regs with src3 := 9, status := 0x31, dbytes := 5 }.sstride c = sceneA.regs.sstride c) ∧
      (∃ t, exec (.xform8 .rgb false) sceneA = .next t) ∧
      (∀ c < Channels.rgb.count, { sceneA.regs with sstride0 := 1, dcap := 0, height := 0 }.src c = sceneA.regs.src c) ∧
      ∃ t, exec (.row3x8 false) sceneA = .next t :=
  ⟨by decide, by decide, exists_next (by decide), by decide, exists_next (by decide)⟩

/-- `VW = 16` and `VW = 2` on the same image. -/
theorem witness_DataBytesIgnoreVectorWidth :
    sceneA.Runnable (.xform8 .rgb false) ∧ sceneA.NoOverlap pA (sceneA.rows (.xform8 .rgb false)) ∧
      sceneNarrow.Runnable (.xform8 .rgb false) ∧ sceneNarrow.NoOverlap pA (sceneNarrow.rows (.xform8 .rgb false)) ∧
      0 < sceneA.rows (.xform8 .rgb false) ∧ 14 < sceneA.rowBytes pA :=
  ⟨by decide, by decide, by decide, by decide, by decide, by decide⟩

/-- Also for the shuffle-then-blend of three vectors, of two lanes. -/
theorem witness_ZipInterleavesTwoAndFour :
    (∀ c < 4, ((fun c => [10 * c, 10 * c + 1]) c : List Nat).length = 2) ∧
      ∀ c < 3, ((fun c => [10 * c, 10 * c + 1]) c : List Nat).length = 2 ^ 1 := by decide

/-- A register of each kind, and the write as the next host access. -/
theorem witness_RegWriteStoresByWidth :
    ({ sceneA with host := [.regWrite .dcap 7, .reset] } : State).host = .regWrite .dcap 7 :: [.reset] ∧
      Reg.dcap ≠ .cmd ∧ Reg.dcap.index < 10 ∧ Reg.width.index = 10 ∧ Reg.height.index = 11 ∧ 12 < Reg.status.index ∧
      Reg.dstride ≠ .dcap := by decide

theorem witness_RegReadReturnsRegister :
    ({ sceneA with host := [.regRead .status] } : State).host = .regRead .status :: [] := rfl

theorem witness_StepRunsDecodedCommand :
    (sceneA.withFetchWord 32 0x08A).host = .regWrite .cmd 0x08A :: [] ∧
      decode ((0x08A : BitVec 64).setWidth 32) = .ok (.xform8 .rgb false) ∧
      decodeTableWord 32 0x08A = some (.xform8 .rgb false) := by decide

theorem witness_IdleEngineHoldsState : State.reset.host = [] := rfl

/-- The first and the last cell of a mapped file, a misaligned access to it, an access past it, the last byte of the window,
and a platform with no mapping. -/
theorem witness_WindowCellsAreRegisters :
    (mapAt 0x400 sceneA).platform.rbase = some 0x2000 ∧ Reg.src0.index = 0 ∧ Reg.dbytes.index = 15 ∧
      (∀ i : Reg, (0x2004 : Addr) ≠ 0x2000 + BitVec.ofNat 64 (8 * i.index)) ∧
      (∀ i : Reg, (0x2080 : Addr) ≠ 0x2000 + BitVec.ofNat 64 (8 * i.index)) ∧
      (0x207F : Addr) = 0x2000 + BitVec.ofNat 64 127 ∧ sceneA.platform.rbase = none :=
  ⟨by decide, rfl, rfl, fun i => by cases i <;> decide, fun i => by cases i <;> decide, by decide, rfl⟩

theorem witness_MemoryReturnsLastByteWritten :
    ({ sceneA with host := [.memWrite 5 7, .memRead 5] } : State).host = .memWrite 5 7 :: .memRead 5 :: [] ∧
      sceneA.platform.inWindow 5 = false ∧ (6 : Addr) ≠ 5 := by decide

theorem witness_ResetInputClearsRegisters :
    ({ sceneA with host := [.reset] } : State).host = .reset :: [] := rfl

theorem witness_ResetDuringCommandAbandonsIt :
    ({ sceneA with host := [.resetDuring 0x08A] } : State).host = .resetDuring 0x08A :: [] ∧
      decode 0x08A = .ok (.xform8 .rgb false) ∧ sceneA.HasCapacity (.xform8 .rgb false) ∧
      sceneA.OffWindow pA (sceneA.rows (.xform8 .rgb false)) ∧ 15 < sceneA.total (.xform8 .rgb false) ∧
      sceneA.platform.memOK (sceneA.destByte 15) = true := by decide

/-- The words that access no memory: an illegal one, and an XFORM one byte short of capacity. -/
theorem witness_ResetDuringCommandAbandonsIt_no_access :
    (∀ i, decode 0x092 = .ok i → ¬ sceneA.HasCapacity i) ∧
      ∀ i, decode 0x08A = .ok i → ¬ ({ sceneA with regs := { sceneA.regs with dcap := 15 } } : State).HasCapacity i := by
  refine ⟨fun i h => absurd h (not_decodes_of_error (e := .depthNotEight) (by decide) i), fun i h => ?_⟩
  have hd : decode 0x08A = .ok (.xform8 .rgb false) := by decide
  obtain rfl : Instr.xform8 .rgb false = i := by rw [hd] at h; exact Except.ok.inj h
  decide

/-- A command cut short whose destination is the register window. -/
theorem witness_ResetDuringCommandAbandonsIt_window :
    decode 0x08A = .ok (.xform8 .rgb false) ∧ (mapAt 0x400 sceneA).HasCapacity (.xform8 .rgb false) ∧
      (mapAt 0x400 sceneA).InWriteSet (.xform8 .rgb false) 0x2000 ∧ (mapAt 0x400 sceneA).platform.inWindow 0x2000 = true :=
  ⟨by decide, by decide, ⟨0, by decide, by decide⟩, by decide⟩

theorem witness_XformStraightAfterReset : (refuseByte 0 State.reset).regs = Regs.reset := rfl

theorem witness_ScriptLinesWriteTheirCommands : 8 ≤ 8 ∧ 8 ≤ 16 ∧ 16 ≤ 16 ∧ (0 : Nat) ≠ 8 ∧ (17 : Nat) ≠ 8 := by decide

/-- A state that meets the invariant beyond reset: an image is described and memory is not empty. -/
theorem witness_StepKeepsInvariant :
    ({ sceneA with regs := { sceneA.regs with status := 0x01, dstride := 16, dbytes := 16 }, host := [.regRead .dcap] } :
        State).Inv ∧
      ∃ t, step { sceneA with
        regs := { sceneA.regs with status := 0x01, dstride := 16, dbytes := 16 }, host := [.regRead .dcap] } = .next t :=
  ⟨by decide, exists_next (by decide)⟩

/-- A step, a command that completes, one that faults, and one that stores nothing. -/
theorem witness_StepTakesOneAccess :
    (∃ t, step (sceneA.withFetchWord 32 0x08A) = .next t) ∧ (∃ t, exec (.row3x8 false) sceneA = .next t) ∧
      (∃ t, exec (.row3x8 false) (refuseByte 0x2003 sceneA) = .next t) ∧
      ∃ t, exec (.xform8 .rgb false) { sceneA with regs := { sceneA.regs with dcap := 15 } } = .next t :=
  ⟨exists_next (by decide), exists_next (by decide), exists_next (by decide), exists_next (by decide)⟩

/-- A command that writes the result registers and one that leaves them. -/
theorem witness_OutputRegistersWrittenBySuccessfulXform :
    (∃ t, exec (.xform8 .rgb false) sceneA = .next t ∧ t.regs.status = 0x01) ∧
      (∃ t, exec (.row3x8 false) sceneA = .next t) ∧
      ∃ t, exec (.xform8 .rgb false) (refuseByte 0x2003 sceneA) = .next t ∧ t.regs.status ≠ 0x01 := by
  have h : ∀ (o : Host.Outcome State Fault Refusal) (x : BitVec 32),
      (nextOf o).map (·.regs.status) = some x → ∃ t, o = .next t ∧ t.regs.status = x := by
    intro o x hx
    cases o with
    | next t => exact ⟨t, rfl, by simpa [nextOf] using hx⟩
    | fault f => cases f
    | refused r => simp [nextOf] at hx
  obtain ⟨t, ht, hs⟩ := h (exec (.xform8 .rgb false) (refuseByte 0x2003 sceneA)) 0x31 (by decide)
  exact ⟨h _ 0x01 (by decide), exists_next (by decide), t, ht, by rw [hs]; decide⟩

theorem witness_RoundUpIsLeastMultiple : 1 ≤ 16 ∧ 16 ∣ 32 ∧ 17 ≤ 32 := by decide

end Sys2Proof.Tests
end

section
/-! PROOFS. The scope's own terms: `roundUp` (`00_scope.md` R10) and the vector width `VW` (R8). -/

namespace Sys2Proof.Machine

/-! ### `roundUp` -/

/-- No multiple of `m` lies between `a` and `roundUp a m`, because `roundUp a m < a + m`. -/
theorem roundUp_le_of_dvd {a b m : Nat} (hm : 0 < m) (hb : m ∣ b) (hab : a ≤ b) : roundUp a m ≤ b := by
  obtain ⟨x, hx⟩ := dvd_roundUp a m
  obtain ⟨y, rfl⟩ := hb
  have hlt : m * x < m * (y + 1) := by
    calc m * x = roundUp a m := hx.symm
      _ < a + m := roundUp_lt a hm
      _ ≤ m * y + m := Nat.add_le_add_right hab m
      _ = m * (y + 1) := (Nat.mul_succ m y).symm
  have hxy : x ≤ y := Nat.le_of_lt_succ (Nat.lt_of_mul_lt_mul_left hlt)
  rw [hx]
  exact Nat.mul_le_mul_left m hxy

/-- Settles O57, from the bounds `a ≤ roundUp a m < a + m`. -/
theorem roundUpIsLeastMultiple : Obligations.RoundUpIsLeastMultiple := by
  intro a m hm
  exact ⟨dvd_roundUp a m, le_roundUp a hm, fun _ => roundUp_le_of_dvd hm, roundUp_eq a hm, roundUp_zero m⟩

/-! ### The platform and the data bytes -/

/-- The platform enters a command's work through the destination stride only. -/
theorem commandWork_withPlatform (i : Instr) (s : State) (q : Platform) :
    commandWork i { s with platform := q } =
      { commandWork i s with stride := { s with platform := q }.rowStride (commandParams i).1 } := by
  unfold commandWork
  split <;> rfl

/-- A data byte is computed from the sources and memory alone: neither the destination stride nor the platform enters. -/
theorem Job.dataByte_withStride_withPlatform (j : Job) (s : State) (stride : Nat) (q : Platform) (row o : Nat) :
    { j with stride := stride }.dataByte { s with platform := q } row o = j.dataByte s row o := rfl

/-- The data bytes of a command are the same on every platform. -/
theorem commandWork_dataByte_withPlatform (i : Instr) (s : State) (q : Platform) (row o : Nat) :
    (commandWork i { s with platform := q }).dataByte { s with platform := q } row o =
      (commandWork i s).dataByte s row o := by
  rw [commandWork_withPlatform, Job.dataByte_withStride_withPlatform]

/-- Settles O35: on either platform byte `o` of row `row` of the destination is the command's data byte, which no platform
enters. -/
theorem dataBytesIgnoreVectorWidth : Obligations.DataBytesIgnoreVectorWidth := by
  rintro i s n s' rfl hrun hapart hrun' hapart'
  refine ⟨_, _, exec_runnable hrun, exec_runnable hrun', fun row hrow o ho => ?_⟩
  rw [exec_dataByte hrun hapart hrow ho, ← commandWork_dataByte_withPlatform i s _ row o]
  exact exec_dataByte hrun' hapart' hrow ho

end Sys2Proof.Machine
end

section
/-! PROOFS. The register file (`10_state.md`): reset, the rights of R35, the command port of R28, and the invariant of R29,
R31, R32 and `20_memory.md` R59. -/

namespace Sys2Proof.Machine

/-! ### Reset -/

@[simp] theorem Regs.read_reset (i : Reg) : Regs.reset.read i = 0 := by cases i <;> rfl

/-- Settles O48: every field of `Regs.reset` is 0. -/
theorem resetStateReadsZero : Obligations.ResetStateReadsZero :=
  ⟨Regs.read_reset, rfl, rfl⟩

/-- Settles O46: the step is `resetInput` with the access taken. -/
theorem resetInputClearsRegisters : Obligations.ResetInputClearsRegisters := by
  intro s rest hhost
  exact ⟨resetInput { s with host := rest }, step_cons hhost, Regs.read_reset, rfl, rfl⟩

/-! ### The command port -/

/-- A write to `CMD` executes the low 32 bits of the value. -/
theorem regWrite_cmd (v : BitVec 64) (s : State) : regWrite .cmd v s = execute (v.setWidth 32) s := if_pos rfl

/-- A write to any other register stores what that register takes. -/
theorem regWrite_of_ne_cmd {i : Reg} (h : i ≠ .cmd) (v : BitVec 64) (s : State) :
    regWrite i v s = .next { s with regs := s.regs.write i v } := if_neg h

/-- A word written to `CMD` runs as the command it decodes to, or raises IllegalCommand. -/
theorem execute_cases (cmd : CmdWord) (s : State) :
    (∃ i, execute cmd s = exec i s) ∨ execute cmd s = .next (raise .illegalCommand s) := by
  by_cases h : ∃ i, decode cmd = .ok i
  · obtain ⟨i, hi⟩ := h
    exact .inl ⟨i, execute_legal hi s⟩
  · exact .inr (execute_illegal (not_exists.mp h) s)

/-- Settles O41: the access is `regWrite` to `CMD`, which executes the word. -/
theorem stepRunsDecodedCommand : Obligations.StepRunsDecodedCommand := by
  intro s v rest i hhost hdecode
  calc step s = regWrite .cmd v { s with host := rest } := step_cons hhost
    _ = execute (v.setWidth 32) { s with host := rest } := regWrite_cmd _ _
    _ = exec i { s with host := rest } := execute_legal hdecode _

/-- The table decoder at 32 bits is the decoder on the low 32 bits of the number. -/
theorem decode_of_decodeTableWord {w : Nat} {i : Instr} (h : decodeTableWord 32 w = some i) :
    decode (BitVec.ofNat 32 w) = .ok i := by
  have hlow : BitVec.ofNat 32 (w % 2 ^ 32) = BitVec.ofNat 32 w := BitVec.eq_of_toNat_eq (by simp)
  rw [decodeTableWord, if_pos (Nat.mod_lt _ (by decide)), hlow] at h
  cases hd : decode (BitVec.ofNat 32 w) with
  | ok j => rw [hd] at h; exact congrArg _ (Option.some.inj h)
  | error e => rw [hd] at h; cases h

/-- Settles O42: the word placed is the next host access, a write to `CMD`, and its low 32 bits are those of `w`. -/
theorem fetchedWordRunsNext : Obligations.FetchedWordRunsNext := by
  intro s w i h
  have hlow : (BitVec.ofNat 64 (w % 2 ^ 32)).setWidth 32 = BitVec.ofNat 32 w :=
    BitVec.eq_of_toNat_eq (by simp)
  exact stepRunsDecodedCommand (s.withFetchWord 32 w) _ s.host i rfl (by rw [hlow]; exact decode_of_decodeTableWord h)

/-! ### What a command writes in the registers -/

@[simp] theorem statusWord_none : statusWord .none = 0x01 := rfl

theorem statusWord_ne_of_ne_none {e : Ending} (h : e ≠ .none) : statusWord e ≠ 0x01 := by
  cases e with
  | none => exact absurd rfl h
  | illegalCommand | allocationFailure | busFault => decide

/-- A command that answers a next state writes `STATUS` alone, with an error, or completes and writes `DSTRIDE` and `DBYTES`
too where it is an XFORM. -/
theorem exec_regs {i : Instr} {s t : State} (h : exec i s = .next t) :
    (∃ e, e ≠ Ending.none ∧ t.regs = s.regs.endWith e) ∨
    (¬ lacksCapacity i s ∧ t.regs = (commandUpd i s s.regs).endWith .none) := by
  rcases exec_next h with rfl | rfl | ⟨-, rfl⟩ | ⟨hc, rfl⟩
  · exact .inl ⟨.illegalCommand, by decide, rfl⟩
  · exact .inl ⟨.allocationFailure, by decide, rfl⟩
  · exact .inl ⟨.busFault, by decide, rfl⟩
  · exact .inr ⟨hc, rfl⟩

/-- The result registers are none of the 12 the host owns. -/
theorem Regs.read_withResults {i : Reg} (h : i.index < 12) (r : Regs) (st : BitVec 32) (ds db : BitVec 64) :
    { r with status := st, dstride := ds, dbytes := db }.read i = r.read i := by
  cases i with
  | cmd | status | dstride | dbytes => exact absurd h (by decide)
  | _ => rfl

theorem Regs.read_endWith {i : Reg} (h : i.index < 12) (r : Regs) (e : Ending) : (r.endWith e).read i = r.read i :=
  Regs.read_withResults h r _ _ _

theorem Regs.read_withOutput {i : Reg} (h : i.index < 12) (r : Regs) (stride total : Nat) :
    (r.withOutput stride total).read i = r.read i :=
  Regs.read_withResults h r _ _ _

/-- A command's result registers are none of the host's. -/
theorem read_commandUpd {j : Reg} (h : j.index < 12) (i : Instr) (s : State) (r : Regs) :
    (commandUpd i s r).read j = r.read j := by
  rcases commandUpd_cases i s with hu | hu <;> rw [hu]
  · rfl
  · exact Regs.read_withOutput h r _ _

/-- Settles O55: an illegal word writes `STATUS`, and a command `STATUS` or its result registers. -/
theorem commandsNeverWriteHostRegisters : Obligations.CommandsNeverWriteHostRegisters := by
  intro cmd s t h j hj
  rcases execute_cases cmd s with ⟨i, h'⟩ | h' <;> rw [h'] at h
  · rcases exec_regs h with ⟨e, -, hr⟩ | ⟨-, hr⟩ <;> rw [hr, Regs.read_endWith hj]
    exact read_commandUpd hj _ _ _
  · cases h
    exact Regs.read_endWith hj _ _

/-! ### `DSTRIDE` and `DBYTES` -/

theorem commandUpd_row {i : Instr} (hd : (commandParams i).2 = false) (s : State) : commandUpd i s = id := by
  simp [commandUpd, hd]

theorem commandUpd_xform {i : Instr} (hd : (commandParams i).2 = true) (s : State) :
    commandUpd i s = (·.withOutput (commandWork i s).stride (commandWork i s).total) := by
  simp [commandUpd, hd]

theorem commandWork_stride_lt (i : Instr) (s : State) : (commandWork i s).stride < 2 ^ 36 := by
  rw [commandWork_stride]
  exact roundUp_rowBytes_lt _ _ _

/-- An XFORM writes `HEIGHT` rows, each as long as its stride. -/
theorem commandWork_total_xform {i : Instr} (hd : (commandParams i).2 = true) (s : State) :
    (commandWork i s).total = (commandWork i s).stride * s.regs.height.toNat := by
  rw [Job.total, commandWork_height, State.rows, if_pos hd]

/-- An XFORM that passes the capacity check writes no more bytes than the host declared. -/
theorem commandWork_total_le_dcap {i : Instr} {s : State} (hd : (commandParams i).2 = true)
    (hc : ¬ lacksCapacity i s) : (commandWork i s).total ≤ s.regs.dcap.toNat :=
  not_lt.mp fun hlt => hc ⟨hd, hlt⟩

section Xform
variable {i : Instr} {s : State} (hd : (commandParams i).2 = true)
include hd

/-- The stride fits `DSTRIDE`. -/
theorem commandUpd_dstride_toNat (r : Regs) : (commandUpd i s r).dstride.toNat = (commandWork i s).stride := by
  rw [commandUpd_xform hd, Regs.withOutput_dstride, BitVec.toNat_ofNat]
  exact Nat.mod_eq_of_lt ((commandWork_stride_lt i s).trans (by decide))

/-- The total fits `DBYTES`, because it is at most `DCAP`. -/
theorem commandUpd_dbytes_toNat (hc : ¬ lacksCapacity i s) (r : Regs) :
    (commandUpd i s r).dbytes.toNat = (commandWork i s).total := by
  rw [commandUpd_xform hd, Regs.withOutput_dbytes, BitVec.toNat_ofNat]
  exact Nat.mod_eq_of_lt ((commandWork_total_le_dcap hd hc).trans_lt (BitVec.isLt _))

end Xform

/-- Settles O56: an error writes `STATUS` alone; of the commands that complete only an XFORM writes the two registers, and
its stride and total fit them. -/
theorem outputRegistersWrittenBySuccessfulXform : Obligations.OutputRegistersWrittenBySuccessfulXform := by
  intro i s t h
  rcases exec_regs h with ⟨e, he, hr⟩ | ⟨hc, hr⟩ <;> rw [hr]
  · exact ⟨fun _ hs => absurd hs (statusWord_ne_of_ne_none he), fun _ => ⟨rfl, rfl⟩⟩
  · cases hd : (commandParams i).2 with
    | false =>
      rw [commandUpd_row hd]
      exact ⟨nofun, fun _ => ⟨rfl, rfl⟩⟩
    | true =>
      refine ⟨fun _ _ => ?_, by simp⟩
      simp only [Regs.endWith_dstride, Regs.endWith_dbytes, commandUpd_dstride_toNat hd, commandUpd_dbytes_toNat hd hc]
      exact ⟨commandWork_stride i s, commandWork_stride_lt i s, commandWork_total_xform hd s,
        commandWork_total_le_dcap hd hc⟩

/-! ### The invariant -/

theorem statusLegal_statusWord (e : Ending) : StatusLegal (statusWord e) := by
  cases e <;> simp [StatusLegal]

/-- The invariant asks only for canonical memory where the registers are those of R40. -/
theorem State.inv_of_regs_eq_reset {s : State} (hm : Memory.wf s.mem) (hr : s.regs = Regs.reset) : s.Inv := by
  refine ⟨hm, ?_, ?_⟩ <;> rw [hr]
  · exact .inl rfl
  · simp [OutputLegal, Regs.reset]

/-- Settles O53: no byte of memory is listed and every register is 0. -/
theorem resetMeetsInvariant : Obligations.ResetMeetsInvariant :=
  State.inv_of_regs_eq_reset ⟨.nil, nofun⟩ rfl

theorem Job.scribble_mem_wf (j : Job) {s : State} (h : Memory.wf s.mem) : Memory.wf (j.scribble s).mem :=
  Memory.fill_wf h _ _ _

theorem Job.complete_mem_wf (j : Job) (upd : Regs → Regs) {s : State} (h : Memory.wf s.mem) :
    Memory.wf (j.complete upd s).mem :=
  Memory.fill_wf h _ _ _

theorem exec_mem_wf {i : Instr} {s t : State} (h : exec i s = .next t) (hm : Memory.wf s.mem) : Memory.wf t.mem := by
  rcases exec_next h with rfl | rfl | ⟨-, rfl⟩ | ⟨-, rfl⟩
  · exact hm
  · exact hm
  · exact Job.scribble_mem_wf _ hm
  · exact Job.complete_mem_wf _ _ hm

theorem exec_platform {i : Instr} {s t : State} (h : exec i s = .next t) : t.platform = s.platform := by
  rcases exec_next h with rfl | rfl | ⟨-, rfl⟩ | ⟨-, rfl⟩ <;> rfl

/-- What a command that completes leaves in `DSTRIDE` and `DBYTES` describes an image if what stood there did. -/
theorem outputLegal_commandUpd {i : Instr} {s : State} (hc : ¬ lacksCapacity i s)
    (h : OutputLegal s.regs s.platform.vw) : OutputLegal (commandUpd i s s.regs) s.platform.vw := by
  cases hd : (commandParams i).2 with
  | false => rwa [commandUpd_row hd]
  | true =>
    have hstride : s.platform.vw ∣ (commandWork i s).stride := by
      rw [commandWork_stride]
      exact dvd_roundUp _ _
    have hheight : s.regs.height.toNat ≤ 2 ^ 32 - 1 := Nat.le_pred_of_lt s.regs.height.isLt
    simp only [OutputLegal, commandUpd_dstride_toNat hd, commandUpd_dbytes_toNat hd hc, commandWork_total_xform hd]
    exact ⟨hstride, commandWork_stride_lt i s, dvd_mul_right _ _, Nat.mul_le_mul_left _ hheight⟩

theorem exec_keeps_inv {i : Instr} {s t : State} (h : exec i s = .next t) (hs : s.Inv) : t.Inv := by
  obtain ⟨hmem, -, hout⟩ := hs
  refine ⟨exec_mem_wf h hmem, ?_⟩
  rw [exec_platform h]
  rcases exec_regs h with ⟨e, -, hr⟩ | ⟨hc, hr⟩ <;> rw [hr]
  · exact ⟨statusLegal_statusWord e, hout⟩
  · exact ⟨statusLegal_statusWord .none, outputLegal_commandUpd hc hout⟩

theorem raise_keeps_inv (e : Ending) {s : State} (hs : s.Inv) : (raise e s).Inv := by
  obtain ⟨hmem, -, hout⟩ := hs
  exact ⟨hmem, statusLegal_statusWord e, hout⟩

theorem execute_keeps_inv {cmd : CmdWord} {s t : State} (h : execute cmd s = .next t) (hs : s.Inv) : t.Inv := by
  rcases execute_cases cmd s with ⟨i, h'⟩ | h' <;> rw [h'] at h
  · exact exec_keeps_inv h hs
  · cases h
    exact raise_keeps_inv _ hs

theorem regWrite_keeps_inv {i : Reg} {v : BitVec 64} {s t : State} (h : regWrite i v s = .next t) (hs : s.Inv) :
    t.Inv := by
  by_cases hi : i = .cmd
  · subst hi
    exact execute_keeps_inv (regWrite_cmd v s ▸ h) hs
  · rw [regWrite_of_ne_cmd hi] at h
    cases h
    simpa only [State.Inv, OutputLegal, Regs.write_status, Regs.write_dstride, Regs.write_dbytes] using hs

theorem mmioWrite_keeps_inv {a : Addr} {size : Nat} {v : BitVec 64} {s t : State}
    (h : mmioWrite a size v s = .next t) (hs : s.Inv) : t.Inv := by
  unfold mmioWrite at h
  split at h
  · exact regWrite_keeps_inv h hs
  · cases h

theorem mmioRead_keeps_inv {a : Addr} {size : Nat} {s t : State} (h : mmioRead a size s = .next t) (hs : s.Inv) :
    t.Inv := by
  unfold mmioRead at h
  split at h
  · cases h
    exact hs
  · cases h

theorem memWrite_keeps_inv {a : Addr} {b : Byte} {s t : State} (h : memWrite a b s = .next t) (hs : s.Inv) : t.Inv := by
  obtain ⟨hmem, hregs⟩ := hs
  unfold memWrite at h
  split at h
  · cases h
  · cases h
    exact ⟨Memory.write_wf hmem a.isLt b, hregs⟩

theorem memRead_keeps_inv {a : Addr} {s t : State} (h : memRead a s = .next t) (hs : s.Inv) : t.Inv := by
  unfold memRead at h
  split at h
  · cases h
  · cases h
    exact hs

/-- A reset during a command leaves the registers of R40 and the memory of an abandoned command. -/
theorem resetDuring_keeps_inv {cmd : CmdWord} {s t : State} (h : resetDuring cmd s = .next t) (hs : s.Inv) : t.Inv := by
  obtain ⟨hmem, -⟩ := hs
  rcases resetDuring_cases cmd s with ⟨-, h'⟩ | ⟨j, -, -, h'⟩ | ⟨j, -, -, h'⟩ <;> rw [h'] at h <;> cases h
  · exact State.inv_of_regs_eq_reset hmem rfl
  · exact State.inv_of_regs_eq_reset (Job.scribble_mem_wf j hmem) rfl

theorem resetInput_keeps_inv {s : State} (hs : s.Inv) : (resetInput s).Inv := by
  obtain ⟨hmem, -⟩ := hs
  exact State.inv_of_regs_eq_reset hmem rfl

theorem hostAccess_keeps_inv {op : HostOp} {s t : State} (h : hostAccess op s = .next t) (hs : s.Inv) : t.Inv := by
  cases op with
  | regWrite i v => exact regWrite_keeps_inv h hs
  | regRead i => cases h; exact hs
  | mmioWrite a size v => exact mmioWrite_keeps_inv h hs
  | mmioRead a size => exact mmioRead_keeps_inv h hs
  | memWrite a b => exact memWrite_keeps_inv h hs
  | memRead a => exact memRead_keeps_inv h hs
  | reset => cases h; exact resetInput_keeps_inv hs
  | resetDuring cmd => exact resetDuring_keeps_inv h hs

/-- With no access pending a step is idle. -/
theorem step_nil {s : State} (h : s.host = []) : step s = .next s := by
  simp only [step, nextAccess, h]

/-- Settles O52: a step is idle or one host access, and every host access keeps the invariant. -/
theorem stepKeepsInvariant : Obligations.StepKeepsInvariant := by
  intro s t hs h
  cases hhost : s.host with
  | nil =>
    rw [step_nil hhost] at h
    cases h
    exact hs
  | cons op rest =>
    rw [step_cons hhost] at h
    exact hostAccess_keeps_inv h hs

end Sys2Proof.Machine
end

section
/-! PROOFS. The read matrix (`10_state.md` R35, R36): a command's result depends on no register it does not read. -/

namespace Sys2Proof.Machine

/-- The registers agree on all that a command reads (R35): `DST`, `WIDTH` and the sources of its planes, and for an XFORM
also `DCAP`, `HEIGHT` and their strides. -/
structure Regs.SameReads (i : Instr) (r q : Regs) : Prop where
  dst : r.dst = q.dst
  width : r.width = q.width
  src : ∀ c < (commandParams i).1.ch.count, r.src c = q.src c
  xform : (commandParams i).2 = true → r.dcap = q.dcap ∧ r.height = q.height ∧
    ∀ c < (commandParams i).1.ch.count, r.sstride c = q.sstride c

/-! ### Work whose sources differ in the planes it does not use -/

section WithSrc
variable {j : Job} {f : Nat → Nat → Addr} (hf : ∀ row, ∀ c < j.par.ch.count, f row c = j.src row c)
include hf

theorem Job.readRanges_withSrc : { j with src := f }.readRanges = j.readRanges := by
  refine List.flatMap_congr fun row _ => List.map_congr_left fun c hc => ?_
  rw [← hf row c (List.mem_range.mp hc)]

theorem Job.touches_withSrc (q : AddrRange) : { j with src := f }.touches q = j.touches q := by
  unfold Job.touches
  rw [Job.readRanges_withSrc hf]
  rfl

theorem Job.touchesWindow_withSrc (p : Platform) : { j with src := f }.touchesWindow p = j.touchesWindow p := by
  simp only [Job.touchesWindow, funext (Job.touches_withSrc hf)]

theorem Job.refused_withSrc (p : Platform) : { j with src := f }.refused p = j.refused p := by
  simp only [Job.refused, funext (Job.touches_withSrc hf)]

theorem Job.src_mod_withSrc (row n : Nat) : f row (n % j.par.ch.count) = j.src row (n % j.par.ch.count) :=
  hf row _ (Nat.mod_lt _ (channels_count_pos _))

theorem Job.sourceRange_withSrc (row o : Nat) : { j with src := f }.sourceRange row o = j.sourceRange row o := by
  simp only [Job.sourceRange, Job.src_mod_withSrc hf]

theorem Job.dataByte_withSrc (s : State) (row o : Nat) : { j with src := f }.dataByte s row o = j.dataByte s row o := by
  simp only [Job.dataByte, Job.sample8, Job.sample16, Job.src_mod_withSrc hf]

theorem Job.determined_withSrc (n : Nat) : { j with src := f }.determined n = j.determined n := by
  simp only [Job.determined, Job.reads, Job.sourceRange_withSrc hf, Job.readRanges_withSrc hf]
  rfl

theorem Job.outByte_withSrc (s : State) (n : Nat) : { j with src := f }.outByte s n = j.outByte s n := by
  simp only [Job.outByte, Job.determined_withSrc hf, Job.dataByte_withSrc hf]

/-- The same free bytes are drawn, and the registers enter a byte of the write set through the job alone. -/
theorem Job.complete_withSrc_withRegs (upd : Regs → Regs) (s : State) (r : Regs) :
    { j with src := f }.complete upd { s with regs := r } =
      { j.complete upd s with regs := (upd r).endWith .none } := by
  have hout : { j with src := f }.outByte { s with regs := r } = j.outByte s := funext (Job.outByte_withSrc hf s)
  simp only [Job.complete, hout]
  rfl

/-- The accesses end in the same way on the other registers, and the two next states differ in the registers alone. -/
theorem Job.run_withSrc_withRegs {upd : Regs → Regs} {s t : State} (h : j.run upd s = .next t) (r : Regs) :
    (t.regs = s.regs.endWith .busFault ∧
      { j with src := f }.run upd { s with regs := r } = .next { t with regs := r.endWith .busFault }) ∨
    (t.regs = (upd s.regs).endWith .none ∧
      { j with src := f }.run upd { s with regs := r } = .next { t with regs := (upd r).endWith .none }) := by
  have hwin := Job.touchesWindow_withSrc hf s.platform
  have href := Job.refused_withSrc hf s.platform
  rcases j.run_cases upd s with ⟨-, h'⟩ | ⟨hw, hb, h'⟩ | ⟨hw, hb, h'⟩ <;> rw [h'] at h <;> cases h
  · exact .inl ⟨rfl, by simp only [Job.run, hwin, hw, href, hb]; rfl⟩
  · refine .inr ⟨rfl, ?_⟩
    rw [← Job.complete_withSrc_withRegs hf]
    simp only [Job.run, hwin, hw, href, hb]
    rfl

end WithSrc

/-! ### A command on other registers -/

theorem exec_of_not_wf {i : Instr} (hw : i.wf = false) (s : State) : exec i s = .next (raise .illegalCommand s) := by
  rcases exec_cases i s with ⟨-, h⟩ | ⟨hw', -⟩ | ⟨hw', -⟩
  · exact h
  · cases hw.symm.trans hw'
  · cases hw.symm.trans hw'

theorem exec_of_lacksCapacity {i : Instr} {s : State} (hw : i.wf = true) (hc : lacksCapacity i s) :
    exec i s = .next (raise .allocationFailure s) := by
  rcases exec_cases i s with ⟨hw', -⟩ | ⟨-, -, h⟩ | ⟨-, hc', -⟩
  · cases hw.symm.trans hw'
  · exact h
  · exact absurd hc hc'

theorem exec_of_not_lacksCapacity {i : Instr} {s : State} (hw : i.wf = true) (hc : ¬ lacksCapacity i s) :
    exec i s = (commandWork i s).run (commandUpd i s) s := by
  rcases exec_cases i s with ⟨hw', -⟩ | ⟨-, hc', -⟩ | ⟨-, -, h⟩
  · cases hw.symm.trans hw'
  · exact absurd hc' hc
  · exact h

section WithRegs
variable {i : Instr} {s : State} {r : Regs} (hr : r.SameReads i s.regs)
include hr

theorem commandWork_src_withRegs (row : Nat) :
    ∀ c < (commandWork i s).par.ch.count,
      (commandWork i { s with regs := r }).src row c = (commandWork i s).src row c := by
  intro c hc
  rw [commandWork_par] at hc
  cases hd : (commandParams i).2 with
  | false => simpa [commandWork, hd, rowJob] using hr.src c hc
  | true =>
    obtain ⟨-, -, hstride⟩ := hr.xform hd
    simp [commandWork, hd, xformJob, hr.src c hc, hstride c hc]

/-- The registers a command does not read enter its work at most through sources of planes it does not use. -/
theorem commandWork_withRegs :
    commandWork i { s with regs := r } =
      { commandWork i s with src := (commandWork i { s with regs := r }).src } := by
  cases hd : (commandParams i).2 with
  | false => simp [commandWork, hd, rowJob, hr.dst, hr.width]
  | true =>
    obtain ⟨-, hheight, -⟩ := hr.xform hd
    simp [commandWork, hd, xformJob, hr.dst, hr.width, hheight]

theorem commandWork_total_withRegs : (commandWork i { s with regs := r }).total = (commandWork i s).total := by
  rw [commandWork_withRegs hr]
  rfl

theorem commandUpd_withRegs : commandUpd i { s with regs := r } = commandUpd i s := by
  unfold commandUpd
  rw [commandWork_withRegs hr]
  rfl

theorem lacksCapacity_withRegs : lacksCapacity i { s with regs := r } ↔ lacksCapacity i s := by
  refine and_congr_right fun hd => ?_
  rw [commandWork_total_withRegs hr, (hr.xform hd).1]

/-- A command that answers a next state does so on the other registers too: the same state but for the registers, which end
as they do there. -/
theorem exec_withRegs {t : State} (h : exec i s = .next t) :
    (∃ e, e ≠ Ending.none ∧ t.regs = s.regs.endWith e ∧
      exec i { s with regs := r } = .next { t with regs := r.endWith e }) ∨
    (t.regs = (commandUpd i s s.regs).endWith .none ∧
      exec i { s with regs := r } = .next { t with regs := (commandUpd i s r).endWith .none }) := by
  rcases exec_cases i s with ⟨hw, h'⟩ | ⟨hw, hc, h'⟩ | ⟨hw, hc, h'⟩ <;> rw [h'] at h
  · cases h
    exact .inl ⟨.illegalCommand, by decide, rfl, exec_of_not_wf hw _⟩
  · cases h
    exact .inl ⟨.allocationFailure, by decide, rfl, exec_of_lacksCapacity hw ((lacksCapacity_withRegs hr).mpr hc)⟩
  · rw [exec_of_not_lacksCapacity hw (mt (lacksCapacity_withRegs hr).mp hc), commandUpd_withRegs hr,
      commandWork_withRegs hr]
    rcases Job.run_withSrc_withRegs (commandWork_src_withRegs hr) h r with ⟨ht, h'⟩ | ⟨ht, h'⟩
    · exact .inl ⟨.busFault, by decide, ht, h'⟩
    · exact .inr ⟨ht, h'⟩

end WithRegs

/-- Settles O34: the two next states have one memory and one `STATUS`, and a completing XFORM writes one stride and one
total. -/
theorem resultIgnoresUnusedRegisters : Obligations.ResultIgnoresUnusedRegisters := by
  intro i s t r hdst hwidth hsrc hxform h
  have hr : r.SameReads i s.regs := ⟨hdst, hwidth, hsrc, hxform⟩
  rcases exec_withRegs hr h with ⟨e, he, ht, h'⟩ | ⟨ht, h'⟩
  · refine ⟨_, h', fun _ => rfl, by rw [ht]; rfl, fun _ hs => ?_⟩
    rw [ht] at hs
    exact absurd hs (statusWord_ne_of_ne_none he)
  · refine ⟨_, h', fun _ => rfl, by rw [ht]; rfl, fun hd _ => ?_⟩
    rw [ht, commandUpd_xform hd]
    exact ⟨rfl, rfl⟩

end Sys2Proof.Machine
end

section
/-! PROOFS. Shared memory (`20_memory.md`): the order of a slot's bytes, the register window of R62, and what a command and
a host access change and leave as it was. -/

namespace Sys2Proof.Machine

/-! ### The bytes of a slot -/

/-- Settles O12: the two addresses differ, so each byte reads back as stored. -/
theorem slotIsStoredLowByteFirst : Obligations.SlotIsStoredLowByteFirst := by
  intro s a v
  have hne : a ≠ a + 1 := (add_ne_left.mpr (by decide)).symm
  refine State.slotAt_of_bytes ?_ (State.byteAt_storeByte_same _ _ _)
  rw [State.byteAt_storeByte_other _ _ hne, State.byteAt_storeByte_same]

/-! ### The register window -/

/-- The index of a register is its place in the register file. -/
theorem Reg.ofIndex_eq_some_iff {n : Nat} {i : Reg} : Reg.ofIndex n = some i ↔ n = i.index := by
  have hnodup : Reg.all.Nodup := by decide
  have hlt : i.index < Reg.all.length := by cases i <;> decide
  have hget : Reg.all[i.index]? = some i := by cases i <;> rfl
  rw [Reg.ofIndex, ← hget]
  exact ⟨fun h => ((List.getElem?_inj hlt hnodup).mp h.symm).symm, fun h => by rw [h]⟩

/-- A memory-mapped access reaches a register exactly when it is a whole 64-bit one at that register's cell. -/
theorem regAt_eq_some_iff {p : Platform} {a : Addr} {size : Nat} {i : Reg} :
    regAt p a size = some i ↔ size = 8 ∧ ∃ b, p.rbase = some b ∧ a = b + BitVec.ofNat 64 (8 * i.index) := by
  have hindex : 8 * i.index < 2 ^ 64 := by cases i <;> decide
  unfold regAt
  cases p.rbase with
  | none => simp
  | some b =>
    simp only [Option.ite_none_right_eq_some, Reg.ofIndex_eq_some_iff, Option.some.injEq, exists_eq_left',
      addr_eq_add_iff a b hindex]
    omega

/-- The register window is the 128 bytes from `RBASE`. -/
theorem inWindow_iff {p : Platform} {a : Addr} :
    p.inWindow a = true ↔ ∃ b, p.rbase = some b ∧ ∃ n < 128, a = b + BitVec.ofNat 64 n := by
  unfold Platform.inWindow Platform.window
  cases p.rbase with
  | none => simp
  | some b => simpa using AddrRange.contains_iff ⟨b, 128⟩ a

section Mapped
variable {a : Addr} {size : Nat} {s : State}

theorem mmioWrite_of_regAt {i : Reg} (h : regAt s.platform a size = some i) (v : BitVec 64) :
    mmioWrite a size v s = regWrite i v s := by
  simp only [mmioWrite, h]

theorem mmioWrite_of_regAt_none (h : regAt s.platform a size = none) (v : BitVec 64) :
    mmioWrite a size v s = .refused .undefinedRegisterAccess := by
  simp only [mmioWrite, h]

theorem mmioRead_of_regAt {i : Reg} (h : regAt s.platform a size = some i) :
    mmioRead a size s = .next (regRead i s) := by
  simp only [mmioRead, h]

theorem mmioRead_of_regAt_none (h : regAt s.platform a size = none) :
    mmioRead a size s = .refused .undefinedRegisterAccess := by
  simp only [mmioRead, h]

theorem memWrite_inWindow (h : s.platform.inWindow a = true) (b : Byte) :
    memWrite a b s = .refused .undefinedRegisterAccess := if_pos h

theorem memWrite_offWindow (h : s.platform.inWindow a = false) (b : Byte) : memWrite a b s = .next (s.storeByte a b) :=
  if_neg (by simp [h])

theorem memRead_inWindow (h : s.platform.inWindow a = true) : memRead a s = .refused .undefinedRegisterAccess := if_pos h

theorem memRead_offWindow (h : s.platform.inWindow a = false) :
    memRead a s = .next { s with readData := (s.byteAt a).setWidth 64 } :=
  if_neg (by simp [h])

end Mapped

/-- Settles O44: the cells are what `regAt` finds, and the window is what `inWindow` finds. -/
theorem windowCellsAreRegisters : Obligations.WindowCellsAreRegisters := by
  refine ⟨fun s rest b i v hbase => ?_, fun s rest a size v hcell hhost => ?_, fun s rest b a x n hbase hn ha hhost => ?_⟩
  · have hreg : regAt { s with host := rest }.platform (b + BitVec.ofNat 64 (8 * i.index)) 8 = some i :=
      regAt_eq_some_iff.mpr ⟨rfl, b, hbase, rfl⟩
    exact ⟨fun hhost => (step_cons hhost).trans (mmioWrite_of_regAt hreg v),
      fun hhost => (step_cons hhost).trans (mmioRead_of_regAt hreg)⟩
  · have hreg : regAt { s with host := rest }.platform a size = none := by
      refine Option.eq_none_iff_forall_ne_some.mpr fun i hi => ?_
      obtain ⟨hsize, b, hbase, ha⟩ := regAt_eq_some_iff.mp hi
      exact hcell b i hbase ha hsize
    rcases hhost with hhost | hhost
    · exact (step_cons hhost).trans (mmioWrite_of_regAt_none hreg v)
    · exact (step_cons hhost).trans (mmioRead_of_regAt_none hreg)
  · have hwin : { s with host := rest }.platform.inWindow a = true := inWindow_iff.mpr ⟨b, hbase, n, hn, ha⟩
    rcases hhost with hhost | hhost
    · exact (step_cons hhost).trans (memWrite_inWindow hwin x)
    · exact (step_cons hhost).trans (memRead_inWindow hwin)

theorem step_memWrite {s : State} {a : Addr} {b : Byte} {rest : List HostOp} (h : s.host = .memWrite a b :: rest)
    (hwin : s.platform.inWindow a = false) : step s = .next ({ s with host := rest }.storeByte a b) :=
  (step_cons h).trans (memWrite_offWindow (s := { s with host := rest }) hwin b)

theorem step_memRead {s : State} {a : Addr} {rest : List HostOp} (h : s.host = .memRead a :: rest)
    (hwin : s.platform.inWindow a = false) :
    step s = .next { s with host := rest, readData := (s.byteAt a).setWidth 64 } :=
  (step_cons h).trans (memRead_offWindow (s := { s with host := rest }) hwin)

/-- Settles O45: the first step stores the byte, and the second copies it to the value read. -/
theorem memoryReturnsLastByteWritten : Obligations.MemoryReturnsLastByteWritten := by
  intro s a b rest hhost hwin
  have hstore := State.byteAt_storeByte_same { s with host := .memRead a :: rest } a b
  refine ⟨_, _, step_memWrite hhost hwin, step_memRead rfl hwin, ?_, rfl, rfl, hstore, fun a' ha' =>
    State.byteAt_storeByte_other { s with host := .memRead a :: rest } b ha'⟩
  rw [hstore]
  exact BitVec.toNat_setWidth_of_le (by decide)

/-- A command touches the register window exactly when a byte of its access sets is in it. -/
theorem commandWork_touchesWindow_iff {i : Instr} {s : State} :
    (commandWork i s).touchesWindow s.platform = true ↔
      ∃ a, (s.InReadSet i a ∨ s.InWriteSet i a) ∧ s.platform.inWindow a = true := by
  simp only [Job.touchesWindow_iff, commandWork_reads_iff, commandWork_writes_iff, or_comm, and_comm]

theorem Job.run_of_touchesWindow {j : Job} {s : State} (h : j.touchesWindow s.platform = true) (upd : Regs → Regs) :
    j.run upd s = .refused .registerWindowTouched := if_pos h

/-- Settles O32: the command comes to its memory accesses, and they touch the window. -/
theorem windowAccessIsRefused : Obligations.WindowAccessIsRefused := by
  intro i s hwf hcap htouch
  have hc : ¬ lacksCapacity i s := fun h => (lacksCapacity_iff i s).mp h hcap
  rw [exec_of_not_lacksCapacity hwf hc]
  exact Job.run_of_touchesWindow (commandWork_touchesWindow_iff.mpr htouch) _

/-! ### What a command leaves as it was -/

theorem exec_host {i : Instr} {s t : State} (h : exec i s = .next t) : t.host = s.host := by
  rcases exec_next h with rfl | rfl | ⟨-, rfl⟩ | ⟨-, rfl⟩ <;> rfl

theorem exec_readData {i : Instr} {s t : State} (h : exec i s = .next t) : t.readData = s.readData := by
  rcases exec_next h with rfl | rfl | ⟨-, rfl⟩ | ⟨-, rfl⟩ <;> rfl

/-- The write set of a ROW command is one padded row. -/
theorem State.total_row {i : Instr} (hd : (commandParams i).2 = false) (s : State) :
    s.total i = roundUp ((commandParams i).1.rowBytes s.regs.width.toNat) s.platform.vw := by
  simp [State.total, State.rows, hd, State.rowStride, State.rowBytes, Params.rowBytes]

/-- Settles O15: of the registers a ROW command writes `STATUS` only, and no command changes a byte outside its write
set. -/
theorem rowCommandFrame : Obligations.RowCommandFrame := by
  intro i s t hd h
  refine ⟨?_, fun a ha => exec_byteAt_outside h a ?_, exec_host h, exec_readData h, exec_platform h⟩
  · rcases exec_regs h with ⟨e, -, hr⟩ | ⟨-, hr⟩ <;> rw [hr]
    · rfl
    · rw [commandUpd_row hd]
      rfl
  · rintro ⟨n, hn, rfl⟩
    rw [State.total_row hd] at hn
    exact ha n hn rfl

/-- Settles O31: a byte of the read set is outside the write set. -/
theorem sourcesAreNeverWritten : Obligations.SourcesAreNeverWritten := by
  rintro i s t hapart h a ⟨row, hrow, c, hc, k, hk, rfl⟩
  refine exec_byteAt_outside h _ ?_
  rintro ⟨n, hn, he⟩
  exact hapart row hrow c hc k hk n hn he

/-! ### What a command reads of memory -/

/-- A data byte is computed from the bytes of its source range alone. -/
theorem Job.dataByte_congr {j : Job} {s t : State} {row o : Nat}
    (h : ∀ a, (j.sourceRange row o).contains a = true → t.byteAt a = s.byteAt a) :
    j.dataByte t row o = j.dataByte s row o := by
  unfold Job.sourceRange at h
  unfold Job.dataByte
  split
  · next hwide =>
    simp only [hwide, if_true, AddrRange.contains_iff] at h
    have hlow := h _ ⟨0, by decide, (add_zero _).symm⟩
    have hhigh := h _ ⟨1, by decide, rfl⟩
    simp only [Job.sample16, State.slotAt, hlow]
    rw [show (1 : Addr) = BitVec.ofNat 64 1 from rfl, hhigh]
  · next hwide =>
    simp only [hwide, Bool.false_eq_true, if_false, AddrRange.contains_iff] at h
    exact h _ ⟨0, by decide, (add_zero _).symm⟩

/-- What a command stores does not depend on what its write set held: a determined byte has no source there, and any other is
a free byte. -/
theorem Job.outByte_congr {j : Job} {s t : State} (hdraws : t.draws = s.draws)
    (h : ∀ a, j.writeRange.contains a = false → t.byteAt a = s.byteAt a) (n : Nat) : j.outByte t n = j.outByte s n := by
  unfold Job.outByte
  split
  · next hd =>
    refine Job.dataByte_congr fun a ha => h a (Bool.eq_false_iff.mpr fun hw => ?_)
    have hmeets : (j.sourceRange (n / j.stride) (n % j.stride)).meets j.writeRange = true :=
      (AddrRange.meets_iff _ _).mpr ⟨a, ha, hw⟩
    simp [Job.determined, hmeets] at hd
  · rw [hdraws]

/-- Two states that agree in the draws and outside the write set have the same bytes once the command has completed. -/
theorem Job.byteAt_complete_congr {j : Job} {upd : Regs → Regs} {s t : State} (htotal : j.total ≤ 2 ^ 64)
    (hdraws : t.draws = s.draws) (h : ∀ a, j.writeRange.contains a = false → t.byteAt a = s.byteAt a) (a : Addr) :
    (j.complete upd t).byteAt a = (j.complete upd s).byteAt a := by
  rw [Job.byteAt_complete _ _ _ htotal, Job.byteAt_complete _ _ _ htotal]
  split
  · exact Job.outByte_congr hdraws h _
  · next hlt => exact h a (decide_eq_false hlt)

/-- Memory enters neither the work of a command nor the registers it writes. -/
theorem commandWork_withMem (i : Instr) (s : State) (m : Memory) : commandWork i { s with mem := m } = commandWork i s := rfl

theorem commandUpd_withMem (i : Instr) (s : State) (m : Memory) : commandUpd i { s with mem := m } = commandUpd i s := rfl

theorem State.Runnable.withMem {i : Instr} {s : State} (h : s.Runnable i) (m : Memory) : { s with mem := m }.Runnable i := h

/-- Settles O33: on either memory the same work completes, and it stores the same bytes. This holds with overlap too, since a
byte that has a source in the write set is free (log 9). -/
theorem resultIgnoresOldDestination : Obligations.ResultIgnoresOldDestination := by
  intro i s m hrun _ hagree
  have hcap : ¬ lacksCapacity i s := fun h => (lacksCapacity_iff i s).mp h hrun.2.1
  have hagree' : ∀ a, (commandWork i s).writeRange.contains a = false → { s with mem := m }.byteAt a = s.byteAt a :=
    fun a ha => hagree a fun hw => by simp [(commandWork_writes_iff i s a).mpr hw] at ha
  refine ⟨_, _, exec_runnable hrun, exec_runnable (hrun.withMem m), rfl, ?_⟩
  exact Job.byteAt_complete_congr (commandWork_total_le hcap) rfl hagree'

/-! ### What a step leaves as it was -/

/-- The platform and the pending accesses are as before, and no draw of free bytes is taken back (logs 1, 3 and 7). -/
structure State.Continues (s t : State) : Prop where
  host : t.host = s.host
  platform : t.platform = s.platform
  draws : s.draws ≤ t.draws

/-- A command draws a free byte for each byte of its write set where it stores one, and none otherwise. -/
theorem exec_draws {i : Instr} {s t : State} (h : exec i s = .next t) :
    t.draws = s.draws + if t.regs.status = 0x01 ∨ t.regs.status = 0x31 then s.total i else 0 := by
  rw [State.total_eq]
  rcases exec_next h with rfl | rfl | ⟨-, rfl⟩ | ⟨-, rfl⟩
  · rw [if_neg (by rw [raise_regs, Regs.endWith_status]; decide)]; rfl
  · rw [if_neg (by rw [raise_regs, Regs.endWith_status]; decide)]; rfl
  · rw [if_pos (.inr rfl)]; rfl
  · rw [if_pos (.inl rfl)]; rfl

theorem exec_continues {i : Instr} {s t : State} (h : exec i s = .next t) : s.Continues t :=
  ⟨exec_host h, exec_platform h, by rw [exec_draws h]; exact Nat.le_add_right _ _⟩

theorem execute_continues {cmd : CmdWord} {s t : State} (h : execute cmd s = .next t) : s.Continues t := by
  rcases execute_cases cmd s with ⟨i, h'⟩ | h' <;> rw [h'] at h
  · exact exec_continues h
  · cases h
    exact ⟨rfl, rfl, le_rfl⟩

theorem regWrite_continues {i : Reg} {v : BitVec 64} {s t : State} (h : regWrite i v s = .next t) : s.Continues t := by
  by_cases hi : i = .cmd
  · subst hi
    exact execute_continues (regWrite_cmd v s ▸ h)
  · rw [regWrite_of_ne_cmd hi] at h
    cases h
    exact ⟨rfl, rfl, le_rfl⟩

theorem mmioWrite_continues {a : Addr} {size : Nat} {v : BitVec 64} {s t : State}
    (h : mmioWrite a size v s = .next t) : s.Continues t := by
  cases hreg : regAt s.platform a size with
  | none => rw [mmioWrite_of_regAt_none hreg] at h; cases h
  | some i => exact regWrite_continues (mmioWrite_of_regAt hreg v ▸ h)

theorem mmioRead_continues {a : Addr} {size : Nat} {s t : State} (h : mmioRead a size s = .next t) : s.Continues t := by
  cases hreg : regAt s.platform a size with
  | none => rw [mmioRead_of_regAt_none hreg] at h; cases h
  | some i => rw [mmioRead_of_regAt hreg] at h; cases h; exact ⟨rfl, rfl, le_rfl⟩

theorem memWrite_continues {a : Addr} {b : Byte} {s t : State} (h : memWrite a b s = .next t) : s.Continues t := by
  cases hwin : s.platform.inWindow a with
  | true => rw [memWrite_inWindow hwin] at h; cases h
  | false => rw [memWrite_offWindow hwin] at h; cases h; exact ⟨rfl, rfl, le_rfl⟩

theorem memRead_continues {a : Addr} {s t : State} (h : memRead a s = .next t) : s.Continues t := by
  cases hwin : s.platform.inWindow a with
  | true => rw [memRead_inWindow hwin] at h; cases h
  | false => rw [memRead_offWindow hwin] at h; cases h; exact ⟨rfl, rfl, le_rfl⟩

theorem resetDuring_continues {cmd : CmdWord} {s t : State} (h : resetDuring cmd s = .next t) : s.Continues t := by
  rcases resetDuring_cases cmd s with ⟨-, h'⟩ | ⟨j, -, -, h'⟩ | ⟨j, -, -, h'⟩ <;> rw [h'] at h <;> cases h
  · exact ⟨rfl, rfl, le_rfl⟩
  · exact ⟨rfl, rfl, Nat.le_add_right _ _⟩

theorem hostAccess_continues {op : HostOp} {s t : State} (h : hostAccess op s = .next t) : s.Continues t := by
  cases op with
  | regWrite i v => exact regWrite_continues h
  | regRead i => cases h; exact ⟨rfl, rfl, le_rfl⟩
  | mmioWrite a size v => exact mmioWrite_continues h
  | mmioRead a size => exact mmioRead_continues h
  | memWrite a b => exact memWrite_continues h
  | memRead a => exact memRead_continues h
  | reset => cases h; exact ⟨rfl, rfl, le_rfl⟩
  | resetDuring cmd => exact resetDuring_continues h

/-- Settles O54: a step is idle or takes one access and performs it on the rest. -/
theorem stepTakesOneAccess : Obligations.StepTakesOneAccess := by
  refine ⟨fun s t h => ?_, fun i s t => exec_draws⟩
  cases hhost : s.host with
  | nil =>
    rw [step_nil hhost] at h
    cases h
    exact ⟨hhost, rfl, le_rfl⟩
  | cons op rest =>
    rw [step_cons hhost] at h
    obtain ⟨hhost', hplatform, hdraws⟩ := hostAccess_continues h
    exact ⟨hhost', hplatform, hdraws⟩

end Sys2Proof.Machine
end

section
/-! PROOFS. The command words (`30_encoding.md`): the fields of format `C` (R80 to R85), the round trips between words and
commands, the opcode rows of R92, and the script lines of R95 and R96. -/

namespace Sys2Proof.Machine

/-! ### The fields of a word, as digits of its number -/

theorem toNat_append_eq_add {m n : Nat} (x : BitVec m) (y : BitVec n) :
    (x ++ y).toNat = x.toNat * 2 ^ n + y.toNat := by
  rw [BitVec.toNat_append, ← Nat.shiftLeft_add_eq_or_of_lt y.isLt, Nat.shiftLeft_eq]

theorem bool_eq_of_toNat_eq {a b : Bool} (h : a.toNat = b.toNat) : a = b := by
  revert a b; decide

section Fields
variable (w : CmdWord)

theorem fieldCH_toNat : (fieldCH w).toNat = w.toNat % 4 := by
  rw [fieldCH, BitVec.extractLsb'_toNat, Nat.shiftRight_zero]

theorem fieldW_toNat : (fieldW w).toNat = w.toNat / 4 % 2 := Nat.toNat_testBit _ _

theorem fieldDRV_toNat : (fieldDRV w).toNat = w.toNat / 8 % 2 := Nat.toNat_testBit _ _

theorem fieldBITS_eq : fieldBITS w = w.toNat / 16 % 32 := by
  rw [fieldBITS, BitVec.extractLsb'_toNat, Nat.shiftRight_eq_div_pow]

theorem fieldSWAP_toNat : (fieldSWAP w).toNat = w.toNat / 512 % 2 := Nat.toNat_testBit _ _

theorem fieldReserved_eq_zero_iff : fieldReserved w = 0#22 ↔ w.toNat < 1024 := by
  rw [← BitVec.toNat_inj, fieldReserved, BitVec.extractLsb'_toNat, Nat.shiftRight_eq_div_pow,
    BitVec.toNat_ofNat]
  omega

end Fields

section PackFields
variable (ch : BitVec 2) (w drv : Bool) (bits : BitVec 5) (swap : Bool)

theorem packFields_toNat : (packFields ch w drv bits swap).toNat =
    swap.toNat * 512 + bits.toNat * 16 + drv.toNat * 8 + w.toNat * 4 + ch.toNat := by
  change ((0 : BitVec 22) ++ BitVec.ofBool swap ++ bits ++ BitVec.ofBool drv ++ BitVec.ofBool w ++ ch).toNat = _
  simp only [toNat_append_eq_add, BitVec.toNat_ofBool, show (0 : BitVec 22).toNat = 0 from rfl]
  ring

@[simp] theorem fieldCH_packFields : fieldCH (packFields ch w drv bits swap) = ch := by
  apply BitVec.eq_of_toNat_eq
  rw [fieldCH_toNat, packFields_toNat]
  omega

@[simp] theorem fieldW_packFields : fieldW (packFields ch w drv bits swap) = w := by
  apply bool_eq_of_toNat_eq
  rw [fieldW_toNat, packFields_toNat]
  have := w.toNat_lt
  omega

@[simp] theorem fieldDRV_packFields : fieldDRV (packFields ch w drv bits swap) = drv := by
  apply bool_eq_of_toNat_eq
  rw [fieldDRV_toNat, packFields_toNat]
  have := w.toNat_lt
  have := drv.toNat_lt
  omega

@[simp] theorem fieldBITS_packFields : fieldBITS (packFields ch w drv bits swap) = bits.toNat := by
  rw [fieldBITS_eq, packFields_toNat]
  have := w.toNat_lt
  have := drv.toNat_lt
  omega

@[simp] theorem fieldSWAP_packFields : fieldSWAP (packFields ch w drv bits swap) = swap := by
  apply bool_eq_of_toNat_eq
  rw [fieldSWAP_toNat, packFields_toNat]
  have := w.toNat_lt
  have := drv.toNat_lt
  have := swap.toNat_lt
  omega

@[simp] theorem fieldReserved_packFields : fieldReserved (packFields ch w drv bits swap) = 0#22 := by
  rw [fieldReserved_eq_zero_iff, packFields_toNat]
  have := w.toNat_lt
  have := drv.toNat_lt
  have := swap.toNat_lt
  omega

end PackFields

/-- A word whose reserved bits are 0 is the word of its fields. -/
theorem packFields_fields {w : CmdWord} (h : fieldReserved w = 0#22) :
    packFields (fieldCH w) (fieldW w) (fieldDRV w) (BitVec.ofNat 5 (fieldBITS w)) (fieldSWAP w) = w := by
  rw [fieldReserved_eq_zero_iff] at h
  apply BitVec.eq_of_toNat_eq
  rw [packFields_toNat, fieldCH_toNat, fieldW_toNat, fieldDRV_toNat, fieldSWAP_toNat, BitVec.toNat_ofNat, fieldBITS_eq]
  omega

/-! ### The parameters of a word and of a command -/

/-- The parameters a word carries, and whether it is a word of the driver. -/
def fieldParams (w : CmdWord) : Params × Bool :=
  (⟨.ofField (fieldCH w), fieldW w, fieldBITS w, fieldSWAP w⟩, fieldDRV w)

/-- The command of given parameters (R91). -/
def commandOf (p : Params) (drv : Bool) : Instr :=
  match p.wide, drv with
  | false, false => .row8 p.ch p.swap
  | false, true => .xform8 p.ch p.swap
  | true, false => .row16 p.ch p.bits p.swap
  | true, true => .xform16 p.ch p.bits p.swap

theorem commandOf_commandParams (i : Instr) : commandOf (commandParams i).1 (commandParams i).2 = i := by
  cases i <;> rfl

theorem commandParams_row8 (ch : Channels) (swap : Bool) :
    commandParams (.row8 ch swap) = (⟨ch, false, 8, swap⟩, false) := by cases ch <;> rfl

theorem commandParams_row16 (ch : Channels) (bits : Nat) (swap : Bool) :
    commandParams (.row16 ch bits swap) = (⟨ch, true, bits, swap⟩, false) := by cases ch <;> rfl

/-- A command carries the parameters it is made of, where they are legal. -/
theorem commandParams_commandOf {p : Params} (h : p.legal = true) (drv : Bool) :
    commandParams (commandOf p drv) = (p, drv) := by
  obtain ⟨ch, wide, bits, swap⟩ := p
  cases wide with
  | true =>
    cases drv with
    | false => exact commandParams_row16 ch bits swap
    | true => rfl
  | false =>
    obtain rfl : bits = 8 := by simpa [Params.legal] using h
    cases drv with
    | false => exact commandParams_row8 ch swap
    | true => rfl

/-- R91: a word is decoded to the command of its parameters when its reserved bits are 0 and they are legal. -/
theorem decode_eq (w : CmdWord) :
    decode w =
      if fieldReserved w ≠ 0#22 then .error .reservedBits
      else if (fieldParams w).1.legal then .ok (commandOf (fieldParams w).1 (fieldParams w).2)
      else .error (if fieldW w then .depthOutOfRange else .depthNotEight) := by
  unfold decode
  cases hw : fieldW w <;> cases hd : fieldDRV w <;> simp [fieldParams, Params.legal, commandOf, hw, hd]

theorem decode_eq_ok_iff (w : CmdWord) (i : Instr) :
    decode w = .ok i ↔
      fieldReserved w = 0#22 ∧ (fieldParams w).1.legal = true ∧ commandOf (fieldParams w).1 (fieldParams w).2 = i := by
  rw [decode_eq]
  by_cases hr : fieldReserved w = 0#22 <;> by_cases hl : (fieldParams w).1.legal = true <;> simp [hr, hl]

@[simp] theorem ofField_field (ch : Channels) : Channels.ofField ch.field = ch := by cases ch <;> rfl

@[simp] theorem field_ofField (c : BitVec 2) : (Channels.ofField c).field = c := by revert c; decide

/-- The word of a command packs its parameters. -/
theorem encode_eq (i : Instr) :
    encode i = packFields (commandParams i).1.ch.field (commandParams i).1.wide (commandParams i).2
      (BitVec.ofNat 5 (commandParams i).1.bits) (commandParams i).1.swap := by
  cases i <;> rfl

/-- A legal depth fits the field `BITS`. -/
theorem bits_lt_of_wf {i : Instr} (h : i.wf = true) : (commandParams i).1.bits < 32 := by
  rw [← legal_commandParams, Params.legal] at h
  split at h
  · exact lt_of_le_of_lt (of_decide_eq_true h).2 (by decide)
  · rw [of_decide_eq_true h]; decide

theorem fieldParams_encode {i : Instr} (h : i.wf = true) : fieldParams (encode i) = commandParams i := by
  have hbits := Nat.mod_eq_of_lt (bits_lt_of_wf h)
  simp [fieldParams, encode_eq, hbits]

/-- Settles O1: the word carries the parameters of the command, and they are legal. -/
theorem decodeInvertsEncode : Obligations.DecodeInvertsEncode := by
  intro i h
  rw [decode_eq_ok_iff, fieldParams_encode h, legal_commandParams, encode_eq]
  exact ⟨fieldReserved_packFields .., h, commandOf_commandParams i⟩

/-- Settles O2: the command carries the parameters of the word, and with reserved bits 0 these make up the word. -/
theorem encodeInvertsDecode : Obligations.EncodeInvertsDecode := by
  intro w i h
  obtain ⟨hr, hl, rfl⟩ := (decode_eq_ok_iff w i).mp h
  rw [← legal_commandParams, encode_eq, commandParams_commandOf hl]
  refine ⟨hl, ?_⟩
  simpa only [fieldParams, field_ofField] using packFields_fields hr

theorem decodes_iff (w : CmdWord) :
    (∃ i, decode w = .ok i) ↔ fieldReserved w = 0#22 ∧ (fieldParams w).1.legal = true := by
  simp only [decode_eq_ok_iff, exists_and_left, exists_eq', and_true]

/-- Clauses (b) and (c) of R88. -/
theorem legal_fieldParams_iff (w : CmdWord) :
    (fieldParams w).1.legal = true ↔
      (fieldW w = false → fieldBITS w = 8) ∧ (fieldW w = true → 8 ≤ fieldBITS w ∧ fieldBITS w ≤ 16) := by
  cases h : fieldW w <;> simp [fieldParams, Params.legal, depthInRange, h]

/-- Settles O3: the clauses of R88 are that the reserved bits are 0 and the parameters legal. -/
theorem legalWordsAreThoseOfR88 : Obligations.LegalWordsAreThoseOfR88 := by
  intro w
  rw [decodes_iff]
  exact and_congr_right fun _ => legal_fieldParams_iff w

/-- Settles O5, by running the decoder on the ten words. -/
theorem workedEncodingsDecode : Obligations.WorkedEncodingsDecode := by
  unfold Obligations.WorkedEncodingsDecode
  decide

/-! ### The opcode rows -/

theorem OpcodeRow.selects_iff (r : OpcodeRow) (w : CmdWord) :
    r.selects w = true ↔ w &&& r.mask = r.value ∧ (r.depthFree = true → depthInRange (fieldBITS w) = true) := by
  simp [OpcodeRow.selects, imp_iff_not_or]

theorem opcodeRows_nodup : opcodeRows.Nodup := by decide

/-- Two rows of R92 differ in a bit that both masks keep. -/
theorem opcodeRow_eq_of_agree :
    ∀ r ∈ opcodeRows, ∀ q ∈ opcodeRows, r.value &&& q.mask = q.value &&& r.mask → r = q := by decide

/-- A word selects at most one row, since it has the bits of each row it selects. -/
theorem opcodeRow_eq_of_selects {r q : OpcodeRow} {w : CmdWord} (hr : r ∈ opcodeRows) (hq : q ∈ opcodeRows)
    (hrw : r.selects w = true) (hqw : q.selects w = true) : r = q := by
  refine opcodeRow_eq_of_agree r hr q hq ?_
  rw [← ((OpcodeRow.selects_iff r w).mp hrw).1, ← ((OpcodeRow.selects_iff q w).mp hqw).1]
  ac_rfl

theorem filter_selects_eq_singleton {r : OpcodeRow} {w : CmdWord} (hr : r ∈ opcodeRows) (hrw : r.selects w = true) :
    (opcodeRows.filter fun q => q.selects w) = [r] := by
  have hsel : ∀ q ∈ opcodeRows, q.selects w = (q == r) := fun q hq => by
    rw [Bool.eq_iff_iff, beq_iff_eq]
    exact ⟨fun hqw => opcodeRow_eq_of_selects hq hr hqw hrw, fun h => h ▸ hrw⟩
  rw [List.filter_congr hsel, List.filter_beq, List.count_eq_one_of_mem opcodeRows_nodup hr]
  rfl

section And
variable (w v : CmdWord)

theorem fieldReserved_and : fieldReserved (w &&& v) = fieldReserved w &&& fieldReserved v := BitVec.extractLsb'_and
theorem fieldCH_and : fieldCH (w &&& v) = fieldCH w &&& fieldCH v := BitVec.extractLsb'_and
theorem fieldW_and : fieldW (w &&& v) = (fieldW w && fieldW v) := BitVec.getLsbD_and
theorem fieldDRV_and : fieldDRV (w &&& v) = (fieldDRV w && fieldDRV v) := BitVec.getLsbD_and
theorem fieldSWAP_and : fieldSWAP (w &&& v) = (fieldSWAP w && fieldSWAP v) := BitVec.getLsbD_and
theorem fieldBITS_and : fieldBITS (w &&& v) = fieldBITS w &&& fieldBITS v := by
  rw [fieldBITS, BitVec.extractLsb'_and, BitVec.toNat_and]
  rfl

end And

theorem packFields_and (ch : BitVec 2) (w drv : Bool) (bits : BitVec 5) (swap : Bool) (v : CmdWord) :
    packFields ch w drv bits swap &&& v =
      packFields (ch &&& fieldCH v) (w && fieldW v) (drv && fieldDRV v) (bits &&& BitVec.ofNat 5 (fieldBITS v))
        (swap && fieldSWAP v) := by
  rw [← packFields_fields (w := packFields ch w drv bits swap &&& v)]
  · simp [fieldCH_and, fieldW_and, fieldDRV_and, fieldBITS_and, fieldSWAP_and]
  · simp [fieldReserved_and]

/-- Every row fixes the reserved bits at 0 and the bit `W`, and `BITS` at 8 unless it has the extra constraint on it. -/
theorem opcodeRows_fix_fields :
    ∀ r ∈ opcodeRows, fieldReserved r.mask = BitVec.allOnes 22 ∧ fieldReserved r.value = 0#22 ∧
      fieldW r.mask = true ∧ fieldW r.value = r.depthFree ∧
      (r.depthFree = false → fieldBITS r.mask = 31 ∧ fieldBITS r.value = 8) := by decide

/-- A word that selects a row is a command: `w &&& mask = value` holds in each field, and the extra constraint is that of
R88 (c). -/
theorem decodes_of_selects {r : OpcodeRow} {w : CmdWord} (hr : r ∈ opcodeRows) (h : r.selects w = true) :
    ∃ i, decode w = .ok i := by
  obtain ⟨hmaskRes, hvalRes, hmaskW, hvalW, hBITS⟩ := opcodeRows_fix_fields r hr
  obtain ⟨hmask, hdepth⟩ := (OpcodeRow.selects_iff r w).mp h
  have hres : fieldReserved w = 0#22 := by
    rw [← hvalRes, ← hmask, fieldReserved_and, hmaskRes, BitVec.and_allOnes]
  have hW : fieldW w = r.depthFree := by
    rw [← hvalW, ← hmask, fieldW_and, hmaskW, Bool.and_true]
  rw [decodes_iff, legal_fieldParams_iff, hW]
  refine ⟨hres, fun h8 => ?_, fun h16 => of_decide_eq_true (hdepth h16)⟩
  obtain ⟨hmaskBITS, hvalBITS⟩ := hBITS h8
  rw [← hvalBITS, ← hmask, fieldBITS_and, hmaskBITS]
  exact (Nat.and_two_pow_sub_one_of_lt_two_pow (n := 5) (BitVec.isLt _)).symm

/-- The row of a command. -/
def opcodeRowOf : Instr → OpcodeRow
  | .row1x8 _ => opcodeRows[0]
  | .row2x8 _ => opcodeRows[1]
  | .row3x8 _ => opcodeRows[2]
  | .row4x8 _ => opcodeRows[3]
  | .row1x16 _ _ => opcodeRows[4]
  | .row2x16 _ _ => opcodeRows[5]
  | .row3x16 _ _ => opcodeRows[6]
  | .row4x16 _ _ => opcodeRows[7]
  | .xform8 _ _ => opcodeRows[8]
  | .xform16 _ _ _ => opcodeRows[9]

theorem opcodeRowOf_mem (i : Instr) : opcodeRowOf i ∈ opcodeRows := by cases i <;> exact List.getElem_mem _

theorem opcodeRowOf_mnemonic (i : Instr) : (opcodeRowOf i).mnemonic = i.mnemonic := by cases i <;> rfl

theorem opcodeRowOf_depthFree (i : Instr) : (opcodeRowOf i).depthFree = (commandParams i).1.wide := by cases i <;> rfl

theorem and_fieldCHOnes (c : BitVec 2) : c &&& 3#2 = c := BitVec.and_allOnes

theorem and_fieldBITSOnes (b : BitVec 5) : b &&& 31#5 = b := BitVec.and_allOnes

section Masks
variable (ch : BitVec 2) (w drv : Bool) (bits : BitVec 5) (swap : Bool)

theorem packFields_and_row8Mask : packFields ch w drv bits swap &&& 0xFFFFFDFF = packFields ch w drv bits false := by
  rw [packFields_and]
  simp [fieldCH, fieldW, fieldDRV, fieldBITS, fieldSWAP, and_fieldCHOnes, and_fieldBITSOnes]

theorem packFields_and_row16Mask : packFields ch w drv bits swap &&& 0xFFFFFC0F = packFields ch w drv 0 false := by
  rw [packFields_and]
  simp [fieldCH, fieldW, fieldDRV, fieldBITS, fieldSWAP, and_fieldCHOnes]

theorem packFields_and_xform8Mask : packFields ch w drv bits swap &&& 0xFFFFFDFC = packFields 0 w drv bits false := by
  rw [packFields_and]
  simp [fieldCH, fieldW, fieldDRV, fieldBITS, fieldSWAP, and_fieldBITSOnes]

theorem packFields_and_xform16Mask : packFields ch w drv bits swap &&& 0xFFFFFC0C = packFields 0 w drv 0 false := by
  rw [packFields_and]
  simp [fieldCH, fieldW, fieldDRV, fieldBITS, fieldSWAP]

end Masks

/-- The word of a command has the bits of its row. -/
theorem encode_and_mask (i : Instr) : encode i &&& (opcodeRowOf i).mask = (opcodeRowOf i).value := by
  cases i with
  | row1x8 | row2x8 | row3x8 | row4x8 => exact packFields_and_row8Mask ..
  | row1x16 | row2x16 | row3x16 | row4x16 => exact packFields_and_row16Mask ..
  | xform8 => exact packFields_and_xform8Mask ..
  | xform16 => exact packFields_and_xform16Mask ..

theorem selects_encode {i : Instr} (h : i.wf = true) : (opcodeRowOf i).selects (encode i) = true := by
  refine (OpcodeRow.selects_iff _ _).mpr ⟨encode_and_mask i, fun hwide => ?_⟩
  have hbits : fieldBITS (encode i) = (commandParams i).1.bits := congrArg (·.1.bits) (fieldParams_encode h)
  rw [opcodeRowOf_depthFree] at hwide
  rw [← legal_commandParams, Params.legal, if_pos hwide] at h
  rwa [hbits]

/-- The values of `W` and `BITS` that R88 (b) and (c) allow. -/
def legalDepths : List (Bool × Nat) := (false, 8) :: (List.range' 8 9).map (true, ·)

theorem mem_legalDepths_iff (p : Params) : (p.wide, p.bits) ∈ legalDepths ↔ p.legal = true := by
  cases h : p.wide <;> simp [legalDepths, Params.legal, depthInRange, Nat.lt_succ_iff, h]

/-- Parameters from `CH`, from `W` and `BITS`, and from `SWAP` and `DRV`. -/
def gatherParams : (Channels × Bool × Nat) × Bool × Bool → Params × Bool
  | ((ch, wide, bits), swap, drv) => (⟨ch, wide, bits, swap⟩, drv)

theorem gatherParams_injective : Function.Injective gatherParams :=
  Function.LeftInverse.injective (g := fun q => ((q.1.ch, q.1.wide, q.1.bits), q.1.swap, q.2)) fun _ => rfl

/-- The legal parameters, each with both values of `DRV`. -/
def legalParams : List (Params × Bool) :=
  (([Channels.gray, .grayAlpha, .rgb, .rgba] ×ˢ legalDepths) ×ˢ ([false, true] ×ˢ [false, true])).map gatherParams

theorem legalParams_length : legalParams.length = 160 := by
  simp [legalParams, legalDepths, List.length_product]

theorem legalParams_nodup : legalParams.Nodup :=
  ((List.Nodup.product (by decide) (by decide)).product (by decide)).map gatherParams_injective

theorem mem_legalParams_iff (p : Params) (drv : Bool) : (p, drv) ∈ legalParams ↔ p.legal = true := by
  have hch : ∀ ch : Channels, ch ∈ [Channels.gray, .grayAlpha, .rgb, .rgba] := fun ch => by cases ch <;> decide
  have hflag : ∀ b : Bool, b ∈ [false, true] := by decide
  rw [← mem_legalDepths_iff]
  change gatherParams ((p.ch, p.wide, p.bits), p.swap, drv) ∈ legalParams ↔ _
  rw [legalParams, List.mem_map_of_injective gatherParams_injective]
  simp only [List.mem_product, hch, hflag, true_and, and_true]

/-- The words of the legal commands. -/
def legalWords : List CmdWord := legalParams.map fun q => encode (commandOf q.1 q.2)

theorem commandOf_wf {p : Params} (h : p.legal = true) (drv : Bool) : (commandOf p drv).wf = true := by
  rw [← legal_commandParams, commandParams_commandOf h]
  exact h

theorem fieldParams_encode_commandOf {p : Params} (h : p.legal = true) (drv : Bool) :
    fieldParams (encode (commandOf p drv)) = (p, drv) := by
  rw [fieldParams_encode (commandOf_wf h drv), commandParams_commandOf h]

theorem legalWords_nodup : legalWords.Nodup := by
  refine legalParams_nodup.map_on ?_
  rintro ⟨p, drv⟩ hp ⟨p', drv'⟩ hp' h
  rw [mem_legalParams_iff] at hp hp'
  rw [← fieldParams_encode_commandOf hp drv, ← fieldParams_encode_commandOf hp' drv', h]

theorem mem_legalWords_iff (w : CmdWord) : w ∈ legalWords ↔ ∃ i, decode w = .ok i := by
  simp only [legalWords, List.mem_map, Prod.exists, mem_legalParams_iff]
  constructor
  · rintro ⟨p, drv, hp, rfl⟩
    exact ⟨_, decodeInvertsEncode _ (commandOf_wf hp drv)⟩
  · rintro ⟨i, hi⟩
    obtain ⟨hwf, henc⟩ := encodeInvertsDecode w i hi
    exact ⟨_, _, (legal_commandParams i).trans hwf, (congrArg encode (commandOf_commandParams i)).trans henc⟩

/-- A word that decodes selects the row of its command. -/
theorem selects_of_decode {w : CmdWord} {i : Instr} (h : decode w = .ok i) : (opcodeRowOf i).selects w = true := by
  obtain ⟨hwf, rfl⟩ := encodeInvertsDecode w i h
  exact selects_encode hwf

/-- Settles O4: a word selects the row of the command it decodes to and no other, and a word that selects a row decodes. -/
theorem opcodeRowsPartitionLegalWords : Obligations.OpcodeRowsPartitionLegalWords := by
  refine ⟨fun w i h => ?_, fun w e h => ?_, legalWords, ?_, legalWords_nodup, fun w => ?_⟩
  · rw [filter_selects_eq_singleton (opcodeRowOf_mem i) (selects_of_decode h), List.map_singleton, opcodeRowOf_mnemonic]
  · refine List.filter_eq_nil_iff.mpr fun r hr hsel => ?_
    obtain ⟨i, hi⟩ := decodes_of_selects hr hsel
    cases h.symm.trans hi
  · rw [legalWords, List.length_map, legalParams_length]
  · rw [mem_legalWords_iff]
    constructor
    · rintro ⟨i, hi⟩
      exact ⟨opcodeRowOf i, opcodeRowOf_mem i, selects_of_decode hi⟩
    · rintro ⟨r, hr, hsel⟩
      exact decodes_of_selects hr hsel

/-! ### `SWAP` on 1-byte samples -/

/-- The parameters with another value of `SWAP`. -/
def Params.withSwap (p : Params) (swap : Bool) : Params := { p with swap := swap }

/-- The work of the same command with another value of `SWAP`. -/
def Job.withSwap (j : Job) (swap : Bool) : Job := { j with par := j.par.withSwap swap }

section WithSwap
variable {j : Job} (h : j.par.wide = false) (swap : Bool)
include h

/-- A data byte of 1-byte samples is a source byte as it stands (R135). -/
theorem Job.dataByte_withSwap (s : State) (row o : Nat) : (j.withSwap swap).dataByte s row o = j.dataByte s row o := by
  unfold Job.dataByte
  rw [show (j.withSwap swap).par.wide = false from h, h]
  rfl

theorem Job.outByte_withSwap (s : State) (n : Nat) : (j.withSwap swap).outByte s n = j.outByte s n := by
  unfold Job.outByte
  rw [Job.dataByte_withSwap h]
  rfl

theorem Job.complete_withSwap (upd : Regs → Regs) (s : State) : (j.withSwap swap).complete upd s = j.complete upd s := by
  unfold Job.complete
  simp only [Job.outByte_withSwap h]
  rfl

/-- `SWAP` enters no access set, so the accesses end in the same way. -/
theorem Job.run_withSwap (upd : Regs → Regs) (s : State) : (j.withSwap swap).run upd s = j.run upd s := by
  unfold Job.run
  rw [Job.complete_withSwap h]
  rfl

end WithSwap

theorem rowCommand_withSwap {p : Params} (h : p.wide = false) (swap : Bool) (s : State) :
    rowCommand (p.withSwap swap) s = rowCommand p s := by
  have hrun := Job.run_withSwap (j := rowJob p s) h swap id s
  unfold rowCommand
  rw [← hrun]
  rfl

theorem xformCommand_withSwap {p : Params} (h : p.wide = false) (swap : Bool) (s : State) :
    xformCommand (p.withSwap swap) s = xformCommand p s := by
  have hrun := Job.run_withSwap (j := xformJob p s) h swap (·.withOutput (xformJob p s).stride (xformJob p s).total) s
  unfold xformCommand
  simp only [← hrun]
  rfl

/-- Settles O6: the two commands differ in `SWAP` alone, which enters the value of 2-byte samples only. -/
theorem swapIsIgnoredOn8BitSamples : Obligations.SwapIsIgnoredOn8BitSamples := by
  intro ch s
  rw [exec_row8, exec_row8]
  exact ⟨rowCommand_withSwap (p := ⟨ch, false, 8, false⟩) rfl true s,
    xformCommand_withSwap (p := ⟨ch, false, 8, false⟩) rfl true s⟩

/-! ### Script lines -/

/-- The number of a command's word, as the sum of its fields in place. -/
theorem encode_toNat {i : Instr} (h : i.wf = true) :
    (encode i).toNat = swapTerm (commandParams i).1.swap + (commandParams i).1.bits * 16 + (commandParams i).2.toNat * 8 +
      (commandParams i).1.wide.toNat * 4 + ((commandParams i).1.ch.count - 1) := by
  have hswap : swapTerm (commandParams i).1.swap = (commandParams i).1.swap.toNat * 512 := by
    cases (commandParams i).1.swap <;> rfl
  have hch : (commandParams i).1.ch.field.toNat = (commandParams i).1.ch.count - 1 := by
    cases (commandParams i).1.ch <;> rfl
  rw [encode_eq, packFields_toNat, BitVec.toNat_ofNat, Nat.mod_eq_of_lt (bits_lt_of_wf h), hswap, hch]

theorem writeCmd_encode {i : Instr} {n : Nat} (h : n = (encode i).toNat) :
    writeCmd n = .regWrite .cmd ((encode i).setWidth 64) := by
  rw [writeCmd, h, BitVec.ofNat_toNat]

theorem writeCmd_row8 (ch : Channels) (swap : Bool) :
    writeCmd (swapTerm swap + 0x080 + (ch.count - 1)) = .regWrite .cmd ((encode (.row8 ch swap)).setWidth 64) := by
  refine writeCmd_encode ?_
  rw [encode_toNat (by cases ch <;> rfl), commandParams_row8]
  rfl

theorem writeCmd_row16 (ch : Channels) {bits : Nat} (swap : Bool) (h : 8 ≤ bits ∧ bits ≤ 16) :
    writeCmd (swapTerm swap + (bits <<< 4) + 4 + (ch.count - 1)) =
      .regWrite .cmd ((encode (.row16 ch bits swap)).setWidth 64) := by
  refine writeCmd_encode ?_
  rw [encode_toNat (by cases ch <;> exact decide_eq_true h), commandParams_row16]
  simp [Nat.shiftLeft_eq]

theorem writeCmd_xform8 (ch : Channels) (swap : Bool) :
    writeCmd (swapTerm swap + 0x088 + (ch.count - 1)) = .regWrite .cmd ((encode (.xform8 ch swap)).setWidth 64) :=
  writeCmd_encode (encode_toNat (i := .xform8 ch swap) rfl).symm

theorem writeCmd_xform16 (ch : Channels) {bits : Nat} (swap : Bool) (h : 8 ≤ bits ∧ bits ≤ 16) :
    writeCmd (swapTerm swap + (bits <<< 4) + 0xC + (ch.count - 1)) =
      .regWrite .cmd ((encode (.xform16 ch bits swap)).setWidth 64) := by
  refine writeCmd_encode ?_
  rw [encode_toNat (i := .xform16 ch bits swap) (decide_eq_true h)]
  simp [Nat.shiftLeft_eq, commandParams]

/-- Settles O50: the number each line writes is the sum of the fields of the word. -/
theorem scriptLinesWriteTheirCommands : Obligations.ScriptLinesWriteTheirCommands := by
  intro ch swap
  simp only [ScriptLine.expand, xformWord, Option.map_some, Option.map_none, writeCmd_row8, writeCmd_xform8, if_true,
    true_and, and_true]
  refine ⟨fun bits h8 h16 => ?_, fun bits h => ?_⟩
  · rw [writeCmd_row16 ch swap ⟨h8, h16⟩, writeCmd_xform16 ch swap ⟨h8, h16⟩]
    exact ⟨rfl, rfl⟩
  · rw [if_neg h]
    rfl

theorem planeRegs_index (c : Fin 4) : (planeRegs c).1.index = c ∧ (planeRegs c).2.index = 4 + c := by
  revert c; decide

/-- The two writes of a `plane` line set the source and the stride of that plane. -/
theorem src_sstride_write_planeRegs (c : Fin 4) (addr stride : BitVec 64) (r : Regs) :
    ((r.write (planeRegs c).1 addr).write (planeRegs c).2 stride).src c = addr ∧
      ((r.write (planeRegs c).1 addr).write (planeRegs c).2 stride).sstride c = stride := by
  fin_cases c <;> exact ⟨rfl, rfl⟩

/-- Settles O51: the lines expand to these writes as they stand. -/
theorem pseudoInstructionsExpand : Obligations.PseudoInstructionsExpand := by
  refine ⟨fun c addr stride r => ?_, fun _ _ => rfl, fun _ _ => rfl, fun _ _ _ _ => rfl⟩
  obtain ⟨hi, hj⟩ := planeRegs_index c
  exact ⟨_, _, rfl, hi, hj, src_sstride_write_planeRegs c addr stride r⟩

end Sys2Proof.Machine
end

section
/-! PROOFS. The Bit-Depth Normalizer (`40_normalizer.md`): the shift-or of R112 on numbers, the repeated top bits of
R116, the rotation of R117, and where the two differ by more than the order of the bytes (R118). -/

namespace Sys2Proof.Machine

/-! ### The shift pair and the shift-or -/

theorem shiftPair_false (bits : Nat) : shiftPair bits false = (16 - bits, 2 * bits - 16) := rfl

theorem shiftPair_true (bits : Nat) : shiftPair bits true = (24 - bits, bits - 8) := rfl

theorem norm_false (bits : Nat) (v : Slot) : norm bits false v = v <<< (16 - bits) ||| v >>> (2 * bits - 16) := rfl

theorem norm_true (bits : Nat) (v : Slot) : norm bits true v = v <<< (24 - bits) ||| v >>> (bits - 8) := rfl

theorem norm_toNat (bits : Nat) (swap : Bool) (v : Slot) :
    (norm bits swap v).toNat =
      v.toNat * 2 ^ (shiftPair bits swap).1 % 2 ^ 16 ||| v.toNat / 2 ^ (shiftPair bits swap).2 := by
  rw [norm, BitVec.toNat_or, BitVec.toNat_shiftLeft, BitVec.toNat_ushiftRight, Nat.shiftLeft_eq,
    Nat.shiftRight_eq_div_pow]

theorem norm_zero (bits : Nat) (swap : Bool) : norm bits swap 0 = 0 := by
  simp [norm]

/-- Settles O7, from the two pairs as they stand. -/
theorem shiftPairOfEachDepth : Obligations.ShiftPairOfEachDepth := by
  intro bits h8 h16
  refine ⟨shiftPair_false bits, shiftPair_true bits, fun swap => ?_, Nat.sub_add_cancel h16⟩
  cases swap
  · rw [shiftPair_false]; omega
  · rw [shiftPair_true]; omega

/-- Settles O8: the shifts of a slot are the product and the quotient of its number. -/
theorem normIsShiftOrOnNumbers : Obligations.NormIsShiftOrOnNumbers := by
  intro bits swap v _ _
  rw [norm_toNat]
  cases swap <;> rfl

/-! ### Samples in range -/

/-- What is shifted up by `k` and what is below `2 ^ k` share no bit. -/
theorem mul_two_pow_and_eq_zero (a : Nat) {b k : Nat} (hb : b < 2 ^ k) : a * 2 ^ k &&& b = 0 := by
  refine Nat.eq_of_testBit_eq fun i => ?_
  rw [Nat.testBit_and, Nat.testBit_mul_two_pow, Nat.zero_testBit]
  by_cases hi : k ≤ i
  · rw [Nat.testBit_lt_two_pow (hb.trans_le (Nat.pow_le_pow_right two_pos hi)), Bool.and_false]
  · rw [decide_eq_false hi, Bool.false_and, Bool.false_and]

section InRange
variable {bits : Nat} {v : Slot} (h16 : bits ≤ 16) (hv : v.toNat < 2 ^ bits)
include h16 hv

theorem leftJustified_lt : v.toNat * 2 ^ (16 - bits) < 2 ^ 16 :=
  calc v.toNat * 2 ^ (16 - bits)
    _ < 2 ^ bits * 2 ^ (16 - bits) := Nat.mul_lt_mul_of_pos_right hv (Nat.two_pow_pos _)
    _ = 2 ^ 16 := by rw [← Nat.pow_add, Nat.add_sub_cancel' h16]

theorem leftJustified_toNat : (v <<< (16 - bits)).toNat = v.toNat * 2 ^ (16 - bits) := by
  rw [BitVec.toNat_shiftLeft, Nat.shiftLeft_eq, Nat.mod_eq_of_lt (leftJustified_lt h16 hv)]

/-- No bit of a sample in range is lost at the top, so shifting the left-justified sample back and further shifts the
sample. -/
theorem leftJustified_ushiftRight_add (k : Nat) : v <<< (16 - bits) >>> (16 - bits + k) = v >>> k := by
  refine BitVec.eq_of_toNat_eq ?_
  rw [BitVec.toNat_ushiftRight, BitVec.toNat_ushiftRight, leftJustified_toNat h16 hv, Nat.shiftRight_eq_div_pow,
    Nat.shiftRight_eq_div_pow, Nat.pow_add, Nat.mul_comm v.toNat, Nat.mul_div_mul_left _ _ (Nat.two_pow_pos _)]

variable (h8 : 8 ≤ bits)
include h8

omit h16 in
theorem topBits_lt : v.toNat / 2 ^ (2 * bits - 16) < 2 ^ (16 - bits) := by
  refine Nat.div_lt_of_lt_mul (hv.trans_le ?_)
  rw [← Nat.pow_add]
  exact Nat.pow_le_pow_right two_pos (by omega)

/-- The two terms of R116 share no bit, so their OR is their sum. -/
theorem norm_false_toNat :
    (norm bits false v).toNat = v.toNat * 2 ^ (16 - bits) + v.toNat / 2 ^ (2 * bits - 16) := by
  rw [norm_toNat, shiftPair_false, Nat.mod_eq_of_lt (leftJustified_lt h16 hv), Nat.mul_comm v.toNat,
    Nat.two_pow_add_eq_or_of_lt (topBits_lt hv h8)]

theorem norm_false_ushiftRight : norm bits false v >>> (16 - bits) = v := by
  refine BitVec.eq_of_toNat_eq ?_
  rw [BitVec.toNat_ushiftRight, norm_false_toNat h16 hv h8, Nat.shiftRight_eq_div_pow,
    Nat.add_comm, Nat.add_mul_div_right _ _ (Nat.two_pow_pos _), Nat.div_eq_of_lt (topBits_lt hv h8), Nat.zero_add]

end InRange

/-- All bits of a sample in range set. -/
theorem norm_false_max : ∀ bits < 17, 8 ≤ bits → norm bits false (BitVec.ofNat 16 (2 ^ bits - 1)) = 0xFFFF := by
  decide

theorem norm_16_false (v : Slot) : norm 16 false v = v := by
  rw [norm_false, BitVec.ushiftRight_eq_zero (by decide)]
  simp

/-- Settles O9: the OR is a sum, and the division by a power of 2 that recovers the sample drops its second term. -/
theorem normWithoutSwapRepeatsTopBits : Obligations.NormWithoutSwapRepeatsTopBits := by
  refine ⟨fun bits v h8 h16 hv => ?_, fun bits h8 h16 => ?_, norm_16_false, fun v hv => ?_⟩
  · have hlow := topBits_lt hv h8
    exact ⟨norm_false_toNat h16 hv h8, leftJustified_lt h16 hv, hlow, mul_two_pow_and_eq_zero _ hlow,
      norm_false_ushiftRight h16 hv h8⟩
  · exact ⟨norm_zero bits false, norm_false_max bits (Nat.lt_succ_of_le h16) h8⟩
  · rw [norm_false_toNat (bits := 8) (by decide) hv (by decide)]
    omega

/-! ### Rotations of a slot -/

/-- The rotation by 0 is no case of its own: the left shift by 16 gives 0. -/
theorem rotr16_eq_or (v : Slot) (n : Nat) : rotr16 v n = v >>> n ||| v <<< (16 - n) := by
  obtain rfl | h := Nat.eq_zero_or_pos n
  · simp [rotr16]
  · rw [rotr16, if_neg h.ne']

theorem rotl16_eq_rotr16 (v : Slot) {n : Nat} (h : n ≤ 16) : rotl16 v n = rotr16 v (16 - n) := by
  rw [rotr16_eq_or, Nat.sub_sub_self h, BitVec.or_comm]
  obtain rfl | h0 := Nat.eq_zero_or_pos n
  · simp [rotl16, BitVec.ushiftRight_eq_zero]
  · rw [rotl16, if_neg h0.ne']

theorem bswap16_eq_rotr16 (v : Slot) : bswap16 v = rotr16 v 8 := BitVec.or_comm _ _

theorem getLsbD_rotr16 (v : Slot) {n i : Nat} (hn : n ≤ 16) (hi : i < 16) :
    (rotr16 v n).getLsbD i = v.getLsbD ((i + n) % 16) := by
  rw [rotr16_eq_or, BitVec.getLsbD_or, BitVec.getLsbD_ushiftRight, BitVec.getLsbD_shiftLeft, Nat.add_comm n]
  by_cases h : i + n < 16
  · simp [Nat.mod_eq_of_lt h, Nat.lt_sub_of_add_lt h]
  · have hmod : (i + n) % 16 = i - (16 - n) := by omega
    rw [hmod, BitVec.getLsbD_of_ge v _ (Nat.le_of_not_lt h)]
    simp [hi, Nat.not_lt.mpr (show 16 - n ≤ i by omega)]

/-- Two rotations that make up a full turn. -/
theorem rotr16_rotr16 (v : Slot) {m n : Nat} (h : m + n = 16) : rotr16 (rotr16 v m) n = v := by
  refine BitVec.eq_of_getLsbD_eq fun i hi => ?_
  have hturn : ((i + n) % 16 + m) % 16 = i := by omega
  rw [getLsbD_rotr16 _ (by omega) hi, getLsbD_rotr16 _ (by omega) (Nat.mod_lt _ (by decide)), hturn]

theorem bswap16_bswap16 (v : Slot) : bswap16 (bswap16 v) = v := by
  rw [bswap16_eq_rotr16, bswap16_eq_rotr16, rotr16_rotr16 v rfl]

/-! ### `NORM` with swap -/

theorem norm_true_eq_rotr16 {bits : Nat} (v : Slot) (h8 : 8 ≤ bits) (h16 : bits ≤ 16) :
    norm bits true v = rotr16 v (bits - 8) := by
  rw [norm_true, rotr16_eq_or, BitVec.or_comm, show 16 - (bits - 8) = 24 - bits by omega]

theorem rotl16_norm_true {bits : Nat} (v : Slot) (h8 : 8 ≤ bits) (h16 : bits ≤ 16) :
    rotl16 (norm bits true v) (bits - 8) = v := by
  rw [norm_true_eq_rotr16 v h8 h16, rotl16_eq_rotr16 _ (by omega), rotr16_rotr16 v (by omega)]

theorem norm_true_rotl16 {bits : Nat} (v : Slot) (h8 : 8 ≤ bits) (h16 : bits ≤ 16) :
    norm bits true (rotl16 v (bits - 8)) = v := by
  rw [norm_true_eq_rotr16 _ h8 h16, rotl16_eq_rotr16 _ (by omega), rotr16_rotr16 v (by omega)]

theorem norm_true_bijective {bits : Nat} (h8 : 8 ≤ bits) (h16 : bits ≤ 16) : Function.Bijective (norm bits true) :=
  Function.bijective_iff_has_inverse.mpr
    ⟨(rotl16 · (bits - 8)), fun v => rotl16_norm_true v h8 h16, fun v => norm_true_rotl16 v h8 h16⟩

theorem norm_16_true (v : Slot) : norm 16 true v = bswap16 v := rfl

theorem norm_8_true (v : Slot) : norm 8 true v = v := norm_true_eq_rotr16 v (by decide) (by decide)

section InRange
variable {bits : Nat} {v : Slot} (h8 : 8 ≤ bits) (h16 : bits ≤ 16) (hv : v.toNat < 2 ^ bits)
include h8 h16 hv

theorem norm_true_eq_bswap16 : norm bits true v = bswap16 (v <<< (16 - bits)) := by
  have hlow : v <<< (16 - bits) >>> 8 = v >>> (bits - 8) := by
    rw [← leftJustified_ushiftRight_add h16 hv, show 16 - bits + (bits - 8) = 8 by omega]
  rw [norm_true, bswap16, hlow, ← BitVec.shiftLeft_add, show 16 - bits + 8 = 24 - bits by omega]

theorem bswap16_norm_true_ushiftRight : bswap16 (norm bits true v) >>> (16 - bits) = v := by
  rw [norm_true_eq_bswap16 h8 h16 hv, bswap16_bswap16]
  exact leftJustified_ushiftRight_add h16 hv 0

end InRange

/-- Settles O10: the two shifts of R111 make up 16, so the shift-or is a rotation, undone by the rotation to the
left. -/
theorem normWithSwapRotatesSlot : Obligations.NormWithSwapRotatesSlot := by
  refine ⟨fun bits h8 h16 => ?_, fun bits v => norm_true_eq_rotr16 v, fun bits => norm_true_bijective,
    fun bits v h8 h16 hv => ⟨norm_true_eq_bswap16 h8 h16 hv, bswap16_norm_true_ushiftRight h8 h16 hv⟩,
    fun bits _ _ => norm_zero bits true, norm_16_true, norm_8_true⟩
  rw [shiftPair_true]
  omega

/-! ### Swap against no swap -/

/-- Settles O11: below 16 bits the largest sample gives `0xFFFF` without swap, and with swap its left-justified form,
which has a zero at the bottom. -/
theorem swapIsByteSwapOfNoSwapOnlyAt16 : Obligations.SwapIsByteSwapOfNoSwapOnlyAt16 := by
  intro bits h8 h16
  constructor
  · intro h
    by_contra hne
    have hmax : (BitVec.ofNat 16 (2 ^ bits - 1)).toNat < 2 ^ bits :=
      (Nat.mod_le _ _).trans_lt (Nat.sub_one_lt (Nat.two_pow_pos _).ne')
    have heq := congrArg bswap16 (h _ hmax)
    rw [norm_true_eq_bswap16 h8 h16 hmax, norm_false_max bits (Nat.lt_succ_of_le h16) h8, bswap16_bswap16,
      bswap16_bswap16] at heq
    have hbit := congrArg (BitVec.getLsbD · 0) heq
    rw [BitVec.getLsbD_shiftLeft, decide_eq_true (show 0 < 16 - bits by omega)] at hbit
    simp at hbit
  · rintro rfl v _
    rw [norm_16_true, norm_16_false]

end Sys2Proof.Machine
end

section
/-! PROOFS. The row operations on 1-byte samples (`41_row_kernels_8bit.md`): what a ROW command stores in its padded
row, and a row of no pixels. -/

namespace Sys2Proof.Machine

/-! ### The bytes of a completed ROW command -/

/-- A row of 1-byte samples has one data byte for each channel of each pixel (R135). -/
@[simp] theorem State.rowBytes_narrow (s : State) (ch : Channels) (bits : Nat) (swap : Bool) :
    s.rowBytes ⟨ch, false, bits, swap⟩ = s.regs.width.toNat * ch.count := by
  simp [State.rowBytes, Params.sw]

/-- The one row of a ROW command is its whole write set. -/
theorem rowJob_total_eq_rowStride (p : Params) (s : State) : (rowJob p s).total = s.rowStride p := Nat.mul_one _

/-- A data byte of the destination row of a ROW command that overlaps nothing. -/
theorem rowJob_complete_data {p : Params} {s : State} (h : s.NoOverlap p 1) {o : Nat} (ho : o < s.rowBytes p) :
    ((rowJob p s).complete id s).byteAt (s.regs.dst + BitVec.ofNat 64 o) = (rowJob p s).dataByte s 0 o := by
  have hle := s.rowBytes_le_rowStride p
  have hat := (rowJob p s).byteAt_complete_at id s (rowJob_total_le p s) (n := o)
    (by rw [rowJob_total_eq_rowStride]; omega)
  have hout := Job.outByte_data (rowJob_apart h) s (row := 0) Nat.one_pos ho hle
  rw [Nat.mul_zero, Nat.zero_add] at hout
  exact hat.trans hout

/-- A pad byte of the destination row. -/
theorem rowJob_complete_pad {p : Params} {s : State} {o : Nat} (hle : s.rowBytes p ≤ o) (ho : o < s.rowStride p) :
    ((rowJob p s).complete id s).byteAt (s.regs.dst + BitVec.ofNat 64 o) = Config.freeByte (s.draws + o) := by
  have hat := (rowJob p s).byteAt_complete_at id s (rowJob_total_le p s) (n := o)
    (by rwa [rowJob_total_eq_rowStride])
  have hmod : o % (rowJob p s).stride = o := Nat.mod_eq_of_lt ho
  exact hat.trans (Job.outByte_pad s (hmod.symm ▸ hle))

/-- A byte outside the destination row. -/
theorem rowJob_complete_outside {p : Params} {s : State} {a : Addr}
    (ha : ∀ o < s.rowStride p, a ≠ s.regs.dst + BitVec.ofNat 64 o) :
    ((rowJob p s).complete id s).byteAt a = s.byteAt a :=
  Job.byteAt_complete_outside _ _ _ (rowJob_total_le p s) (by rwa [rowJob_total_eq_rowStride])

/-- The data byte of pixel `k`, channel `c` in a row of 1-byte samples. -/
theorem Job.dataByte_narrow {j : Job} (hn : j.par.wide = false) (s : State) (row k : Nat) {c : Nat}
    (hc : c < j.par.ch.count) : j.dataByte s row (k * j.par.ch.count + c) = j.sample8 s row k c := by
  obtain ⟨hdiv, hmod⟩ := (Nat.div_mod_unique (channels_count_pos j.par.ch)).mpr
    ⟨show c + j.par.ch.count * k = k * j.par.ch.count + c by ring, hc⟩
  rw [Job.dataByte, hn, if_neg Bool.false_ne_true, hdiv, hmod]

/-- Settles O13: the command completes; data byte `k*ch + c` is the sample of channel `c` of pixel `k`, and the rest of
the padded row is pad. -/
theorem row8InterleavesSamples : Obligations.Row8InterleavesSamples := by
  rintro s ch swap p rfl hwindow haccepted hapart
  have hbytes := s.rowBytes_narrow ch 8 swap
  have hstride : s.rowStride ⟨ch, false, 8, swap⟩ = roundUp (s.regs.width.toNat * ch.count) s.platform.vw := by
    rw [State.rowStride, hbytes]
  rw [exec_row8, rowCommand_completes rfl hwindow haccepted, ← hstride, ← hbytes]
  refine ⟨_, rfl, fun k hk c hc => ?_, fun o => rowJob_complete_pad, fun a => rowJob_complete_outside, rfl, ?_, rfl,
    rfl, rfl⟩
  · rw [rowJob_complete_data hapart (hbytes ▸ sample_index_lt hk hc)]
    exact Job.dataByte_narrow rfl s 0 k hc
  · rw [Job.complete_draws, rowJob_total_eq_rowStride]

/-! ### A row of no pixels -/

section WidthZero
variable {s : State} (hw : s.regs.width = 0)
include hw

theorem State.planeRowBytes_of_width_zero (p : Params) : s.planeRowBytes p = 0 := by
  simp [State.planeRowBytes, hw]

theorem State.rowStride_of_width_zero (p : Params) : s.rowStride p = 0 := by
  simp [State.rowStride, State.rowBytes, hw]

/-- A ROW command over no pixels has empty access sets: the platform has nothing to refuse, and nothing is stored. -/
theorem rowCommand_of_width_zero {p : Params} (hl : p.legal = true) :
    rowCommand p s = .next { s with regs := s.regs.endWith .none } := by
  have hread := State.planeRowBytes_of_width_zero hw p
  have hwrite := State.rowStride_of_width_zero hw p
  have htotal : (rowJob p s).total = 0 := (rowJob_total_eq_rowStride p s).trans hwrite
  rw [rowCommand_completes hl (by simp [State.OffWindow, hread, hwrite]) (by simp [State.Accepted, hread, hwrite]),
    Job.complete, htotal]
  rfl

end WidthZero

/-- Settles O16: every ROW command over no pixels completes with empty access sets. -/
theorem zeroWidthRowWritesOnlyStatus : Obligations.ZeroWidthRowWritesOnlyStatus := by
  intro s ch bits swap h8 h16 hw
  rw [exec_row8, exec_row16]
  exact ⟨rowCommand_of_width_zero hw rfl,
    rowCommand_of_width_zero hw (by simp [Params.legal, depthInRange, h8, h16])⟩

end Sys2Proof.Machine
end

section
/-! PROOFS. The lanes of a chunk (`41_row_kernels_8bit.md` R136 to R138, `42_row_kernels_16bit.md` R156): each strategy
interleaves its vectors, so the chunks and the tail of a row are one scalar loop over it. -/

namespace Sys2Proof.Machine

/-! ### Lists made of blocks of one length -/

section Blocks
variable {α β : Type} {m : Nat}

theorem length_flatMap_block {f : α → List β} (hf : ∀ a, (f a).length = m) (l : List α) :
    (l.flatMap f).length = m * l.length := by
  simp [List.length_flatMap, hf, Nat.mul_comm]

/-- Element `c` of block `i`. -/
theorem getElem?_flatMap_block {f : α → List β} (hf : ∀ a, (f a).length = m) (l : List α) (i : Nat) {c : Nat}
    (hc : c < m) : (l.flatMap f)[m * i + c]? = l[i]?.bind fun a => (f a)[c]? := by
  induction l generalizing i with
  | nil => rfl
  | cons a l ih =>
    rw [List.flatMap_cons]
    cases i with
    | zero =>
      rw [Nat.mul_zero, Nat.zero_add, List.getElem?_append_left (by rwa [hf])]
      rfl
    | succ i =>
      have hskip : m * (i + 1) + c = (f a).length + (m * i + c) := by rw [hf]; ring
      rw [hskip, List.getElem?_append_right (Nat.le_add_right _ _), Nat.add_sub_cancel_left]
      exact ih i

/-- A list of `n` blocks of length `m` is given by the elements of its blocks. -/
theorem list_ext_block {n : Nat} {x y : List α} (hx : x.length = m * n) (hy : y.length = m * n)
    (h : ∀ i < n, ∀ c < m, x[m * i + c]? = y[m * i + c]?) : x = y := by
  refine List.ext_getElem? fun o => ?_
  by_cases ho : o < m * n
  · rw [← Nat.div_add_mod o m]
    exact h _ (Nat.div_lt_of_lt_mul ho) _ (Nat.mod_lt _ (Nat.pos_of_mul_pos_right (Nat.zero_lt_of_lt ho)))
  · rw [List.getElem?_eq_none (by omega), List.getElem?_eq_none (by omega)]

/-- Two nested loops are one loop over the product, by quotient and remainder. -/
theorem flatMap_range_map_range (m n : Nat) (f : Nat → Nat → α) :
    ((List.range n).flatMap fun i => (List.range m).map (f i)) =
      (List.range (m * n)).map fun o => f (o / m) (o % m) := by
  have hf : ∀ i, ((List.range m).map (f i)).length = m := by simp
  refine list_ext_block (m := m) (n := n) (by rw [length_flatMap_block hf, List.length_range]) (by simp)
    fun i hi c hc => ?_
  have ho : m * i + c < m * n := by
    rw [Nat.mul_comm m i, Nat.mul_comm m n]
    exact sample_index_lt hi hc
  obtain ⟨hdiv, hmod⟩ := (Nat.div_mod_unique (Nat.zero_lt_of_lt hc)).mpr ⟨Nat.add_comm c (m * i), hc⟩
  rw [getElem?_flatMap_block hf _ _ hc]
  simp [hi, hc, ho, hdiv, hmod]

end Blocks

/-! ### The zip (R137) -/

section Zip
variable {α : Type} {x y : List α} (h : x.length = y.length)
include h

theorem length_zipLanes : (zipLanes x y).length = 2 * x.length := by
  rw [zipLanes, length_flatMap_block (m := 2) (fun _ => rfl), List.length_zip, ← h, Nat.min_self]

theorem zipLanes_even (i : Nat) : (zipLanes x y)[2 * i]? = x[i]? := by
  refine (getElem?_flatMap_block (m := 2) (fun _ => rfl) (x.zip y) i (c := 0) (by decide)).trans ?_
  by_cases hi : i < x.length
  · simp [hi, h ▸ hi]
  · simp [hi]

theorem zipLanes_odd (i : Nat) : (zipLanes x y)[2 * i + 1]? = y[i]? := by
  refine (getElem?_flatMap_block (m := 2) (fun _ => rfl) (x.zip y) i (c := 1) (by decide)).trans ?_
  by_cases hi : i < y.length
  · simp [hi, h ▸ hi]
  · simp [hi]

end Zip

/-- Settles O36: the first level sends vectors 0 and 1 to the even vector and 2 and 3 to the odd one of the second. -/
theorem zipInterleavesTwoAndFour : Obligations.ZipInterleavesTwoAndFour := by
  intro α lanes v hlen
  have hsame : ∀ b < 4, ∀ c < 4, (v b).length = (v c).length := fun b hb c hc => (hlen b hb).trans (hlen c hc).symm
  have h01 := hsame 0 (by decide) 1 (by decide)
  have h02 := hsame 0 (by decide) 2 (by decide)
  have h13 := hsame 1 (by decide) 3 (by decide)
  have hzip : (zipLanes (v 0) (v 2)).length = (zipLanes (v 1) (v 3)).length := by
    rw [length_zipLanes h02, length_zipLanes h13, h01]
  refine ⟨fun i _ c hc => ?_, fun i _ c hc => ?_⟩
  · match c with
    | 0 => exact zipLanes_even h01 i
    | 1 => exact zipLanes_odd h01 i
  · match c with
    | 0 => rw [show 4 * i + 0 = 2 * (2 * i) by omega, zipLanes_even hzip, zipLanes_even h02]
    | 1 => rw [show 4 * i + 1 = 2 * (2 * i) + 1 by omega, zipLanes_odd hzip, zipLanes_even h13]
    | 2 => rw [show 4 * i + 2 = 2 * (2 * i + 1) by omega, zipLanes_even hzip, zipLanes_odd h02]
    | 3 => rw [show 4 * i + 3 = 2 * (2 * i + 1) + 1 by omega, zipLanes_odd hzip, zipLanes_odd h13]

/-! ### Shuffle-then-blend (R138) -/

/-- `i ↦ (3i + c) mod 2 ^ n` is injective on the lanes, since 3 and `2 ^ n` are coprime. -/
theorem lane_eq_of_stride_three_eq {n c i j : Nat} (hi : i < 2 ^ n) (hj : j < 2 ^ n)
    (h : (3 * i + c) % 2 ^ n = (3 * j + c) % 2 ^ n) : i = j := by
  have hcoprime : Nat.gcd (2 ^ n) 3 = 1 := Nat.Coprime.pow_left n (by decide)
  have hmul : 3 * i ≡ 3 * j [MOD 2 ^ n] := Nat.ModEq.add_right_cancel' c h
  exact (Nat.ModEq.cancel_left_of_coprime hcoprime hmul).eq_of_lt_of_lt hi hj

/-- The table of channel `c` names lane `i` at the place that lane goes to. -/
theorem permTable_getElem? {n i : Nat} (hi : i < 2 ^ n) (c : Nat) :
    (permTable (2 ^ n) c)[(3 * i + c) % 2 ^ n]? = some i := by
  have hfind : (List.range (2 ^ n)).find? (fun j => (3 * j + c) % 2 ^ n == (3 * i + c) % 2 ^ n) = some i := by
    refine List.find?_range_eq_some.mpr ⟨beq_self_eq_true _, List.mem_range.mpr hi, fun j hj => ?_⟩
    have hne : (3 * j + c) % 2 ^ n ≠ (3 * i + c) % 2 ^ n := fun h =>
      hj.ne (lane_eq_of_stride_three_eq (hj.trans hi) hi h)
    simp [hne]
  have hlane : (3 * i + c) % 2 ^ n < 2 ^ n := Nat.mod_lt _ (Nat.two_pow_pos n)
  rw [permTable, List.getElem?_map, List.getElem?_range hlane, Option.map_some, hfind, Option.getD_some]

section Blend
variable {α : Type} [Inhabited α]

/-- The permuted vector holds lane `i` at the place that lane goes to. -/
theorem shuffleLanes_permTable_getD {n i : Nat} (hi : i < 2 ^ n) (c : Nat) (v : List α) :
    (shuffleLanes (permTable (2 ^ n) c) v).getD ((3 * i + c) % 2 ^ n) default = v.getD i default := by
  rw [List.getD_eq_getElem?_getD, shuffleLanes, List.getElem?_map, permTable_getElem? hi, Option.map_some,
    Option.getD_some]

theorem length_blendLanes (lanes m : Nat) (x y z : List α) :
    (blendLanes (blendSelector lanes m) x y z).length = lanes := by
  simp [blendLanes, blendSelector]

/-- Lane `o` of the joined output is taken from the permuted source `o mod 3`, at lane `o mod L`. -/
theorem shuffleBlend_getElem? {lanes o : Nat} (ho : o < lanes * 3) (x y z : List α) :
    (shuffleBlend lanes x y z)[o]? =
      some ((if o % 3 = 0 then shuffleLanes (permTable lanes 0) x
        else if o % 3 = 1 then shuffleLanes (permTable lanes 1) y
        else shuffleLanes (permTable lanes 2) z).getD (o % lanes) default) := by
  have hvector : o / lanes < 3 := Nat.div_lt_of_lt_mul ho
  have hlane : o % lanes < lanes := Nat.mod_lt _ (Nat.pos_of_mul_pos_right (Nat.zero_lt_of_lt ho))
  conv_lhs => rw [← Nat.div_add_mod o lanes]
  rw [shuffleBlend, getElem?_flatMap_block (fun m => length_blendLanes lanes m _ _ _) _ _ hlane,
    List.getElem?_range hvector, Option.bind_some, blendLanes, List.getElem?_mapIdx, blendSelector, List.getElem?_map,
    List.getElem?_range hlane, Option.map_some, Option.map_some, Nat.div_add_mod]

theorem length_shuffleBlend (lanes : Nat) (x y z : List α) : (shuffleBlend lanes x y z).length = lanes * 3 := by
  rw [shuffleBlend, length_flatMap_block fun m => length_blendLanes lanes m _ _ _, List.length_range]

end Blend

/-- Settles O37: lane `3i + c` is taken from the permuted source `c`, at the place lane `i` of that source went to. -/
theorem shuffleBlendInterleavesThree : Obligations.ShuffleBlendInterleavesThree := by
  intro α _ n v hlen
  refine ⟨(length_shuffleBlend _ _ _ _).trans (Nat.mul_comm _ _), fun i hi c hc => ?_⟩
  have hsource : (3 * i + c) % 3 = c := by omega
  have hv : (v c)[i]? = some ((v c).getD i default) := by
    have : i < (v c).length := (hlen c hc).symm ▸ hi
    simp [this]
  rw [shuffleBlend_getElem? (by omega), hsource, hv]
  match c with
  | 0 | 1 | 2 => exact congrArg some (shuffleLanes_permTable_getD hi _ _)

/-! ### Chunks and tail (R136, R156) -/

section Lanes
variable {α : Type} (ch : Channels) (lane : Nat → Nat → α)

/-- The scalar loop over the pixels from `k` to `k + a + b`, cut at `k + a`. -/
theorem scalarLanes_add (k a b : Nat) :
    scalarLanes ch lane k (a + b) = scalarLanes ch lane k a ++ scalarLanes ch lane (k + a) b := by
  simp only [scalarLanes, List.range_add, List.flatMap_append, List.flatMap_map, Nat.add_assoc]

/-- Equal pieces of the scalar loop, one after another. -/
theorem flatMap_range_scalarLanes (n q : Nat) :
    ((List.range q).flatMap fun i => scalarLanes ch lane (n * i) n) = scalarLanes ch lane 0 (n * q) := by
  induction q with
  | zero => rfl
  | succ q ih =>
    rw [List.range_succ, List.flatMap_append, ih, List.flatMap_singleton, Nat.mul_succ, scalarLanes_add, Nat.zero_add]

/-- The scalar loop over a whole row, lane by lane. -/
theorem scalarLanes_zero_eq_map (n : Nat) :
    scalarLanes ch lane 0 n = (List.range (ch.count * n)).map fun o => lane (o / ch.count) (o % ch.count) := by
  simp only [scalarLanes, Nat.zero_add]
  exact flatMap_range_map_range _ _ _

theorem length_scalarLanes (k n : Nat) : (scalarLanes ch lane k n).length = ch.count * n := by
  rw [scalarLanes, length_flatMap_block (m := ch.count) (by simp), List.length_range]

theorem scalarLanes_getElem? {n i c : Nat} (k : Nat) (hi : i < n) (hc : c < ch.count) :
    (scalarLanes ch lane k n)[ch.count * i + c]? = some (lane (k + i) c) := by
  rw [scalarLanes, getElem?_flatMap_block (by simp) _ _ hc]
  simp [hi, hc]

end Lanes

section Chunks
variable {α : Type} [Inhabited α] (ch : Channels)

theorem length_interleaveChunk {lanes : Nat} {v : Nat → List α} (hlen : ∀ c, (v c).length = lanes) :
    (interleaveChunk ch lanes v).length = ch.count * lanes := by
  have hzip (b c : Nat) : (zipLanes (v b) (v c)).length = 2 * lanes := by
    rw [length_zipLanes ((hlen b).trans (hlen c).symm), hlen]
  cases ch with
  | gray => exact (hlen 0).trans (Nat.one_mul _).symm
  | grayAlpha => exact hzip 0 1
  | rgb => exact (length_shuffleBlend _ _ _ _).trans (Nat.mul_comm _ _)
  | rgba =>
    rw [interleaveChunk, length_zipLanes ((hzip 0 2).trans (hzip 1 3).symm), hzip, ← Nat.mul_assoc]
    rfl

/-- Every strategy puts lane `i` of channel `c` at lane `ch * i + c`. -/
theorem interleaveChunk_getElem? {n i c : Nat} {v : Nat → List α} (hlen : ∀ c, (v c).length = 2 ^ n)
    (hi : i < 2 ^ n) (hc : c < ch.count) : (interleaveChunk ch (2 ^ n) v)[ch.count * i + c]? = (v c)[i]? := by
  obtain ⟨htwo, hfour⟩ := zipInterleavesTwoAndFour α (2 ^ n) v fun c _ => hlen c
  obtain ⟨-, hthree⟩ := shuffleBlendInterleavesThree α n v fun c _ => hlen c
  cases ch with
  | gray =>
    obtain rfl : c = 0 := Nat.lt_one_iff.mp hc
    rw [Channels.count, Nat.one_mul]
    rfl
  | grayAlpha => exact htwo i hi c hc
  | rgb => exact hthree i hi c hc
  | rgba => exact hfour i hi c hc

/-- A chunk is a piece of the scalar loop. -/
theorem interleaveChunk_eq_scalarLanes (n k : Nat) (lane : Nat → Nat → α) :
    interleaveChunk ch (2 ^ n) (fun c => (List.range (2 ^ n)).map fun x => lane (k + x) c) =
      scalarLanes ch lane k (2 ^ n) := by
  have hlen (c : Nat) : ((List.range (2 ^ n)).map fun x => lane (k + x) c).length = 2 ^ n := by simp
  refine list_ext_block (length_interleaveChunk ch hlen) (length_scalarLanes ch lane k _) fun i hi c hc => ?_
  rw [interleaveChunk_getElem? ch hlen hi hc, scalarLanes_getElem? ch lane k hi hc]
  simp [hi]

/-- Chunks and tail are the scalar loop over the whole row. -/
theorem chunkedLanes_eq_scalarLanes (n width : Nat) (lane : Nat → Nat → α) :
    chunkedLanes ch (2 ^ n) lane width = scalarLanes ch lane 0 width := by
  simp only [chunkedLanes, interleaveChunk_eq_scalarLanes, flatMap_range_scalarLanes]
  conv_rhs => rw [← Nat.div_add_mod width (2 ^ n), scalarLanes_add, Nat.zero_add]
  rw [Nat.mul_comm]

end Chunks

/-- Byte `o` of a vector of slots is byte `o mod 2` of slot `o div 2`. -/
theorem slotBytes_map_range (n : Nat) (f : Nat → Slot) :
    slotBytes ((List.range n).map f) = (List.range (2 * n)).map fun o => (f (o / 2)).extractLsb' (8 * (o % 2)) 8 := by
  rw [slotBytes, List.flatMap_map]
  exact flatMap_range_map_range 2 n fun q b => (f q).extractLsb' (8 * b) 8

/-- Settles O38: chunks and tail are the scalar loop over the row, whose lanes are the samples the data bytes are cut
from. -/
theorem vectorRowEqualsScalarRow : Obligations.VectorRowEqualsScalarRow := by
  intro j s row n
  cases hwide : j.par.wide with
  | false =>
    have hbytes : j.par.rowBytes j.width = j.par.ch.count * j.width := by
      simp [Params.rowBytes, Params.sw, hwide, Nat.mul_comm]
    simp only [Job.vectorRow, Job.dataByte, hwide, Bool.false_eq_true, if_false, hbytes, chunkedLanes_eq_scalarLanes,
      scalarLanes_zero_eq_map]
  | true =>
    have hbytes : j.par.rowBytes j.width = 2 * (j.par.ch.count * j.width) := by
      simp only [Params.rowBytes, Params.sw, hwide, if_true]
      ring
    have hlanes : 2 ^ (n + 1) / 2 = 2 ^ n := Nat.mul_div_cancel _ (by decide)
    simp only [Job.vectorRow, Job.dataByte, hwide, if_true, hbytes, hlanes, chunkedLanes_eq_scalarLanes,
      scalarLanes_zero_eq_map, slotBytes_map_range]

end Sys2Proof.Machine
end

section
/-! PROOFS. The row operations on 2-byte samples (`42_row_kernels_16bit.md`): the slots a ROW command stores (R155), and
the sample that each of them gives back (R157). -/

namespace Sys2Proof.Machine

/-! ### The slots of a completed ROW command -/

/-- A row of 2-byte samples has two data bytes for each channel of each pixel (R155). -/
theorem State.rowBytes_wide (s : State) {p : Params} (hw : p.wide = true) :
    s.rowBytes p = 2 * s.regs.width.toNat * p.ch.count := by
  rw [State.rowBytes, Params.sw, if_pos hw, Nat.mul_comm 2]

/-- Byte `b` of the slot of pixel `k`, channel `c` in a row of 2-byte samples. -/
theorem Job.dataByte_wide {j : Job} (hw : j.par.wide = true) (s : State) (row k : Nat) {c b : Nat}
    (hc : c < j.par.ch.count) (hb : b < 2) :
    j.dataByte s row (2 * (k * j.par.ch.count + c) + b) = (j.sample16 s row k c).extractLsb' (8 * b) 8 := by
  obtain ⟨hslot, hbyte⟩ := (Nat.div_mod_unique two_pos).mpr
    ⟨Nat.add_comm b (2 * (k * j.par.ch.count + c)), hb⟩
  obtain ⟨hpixel, hchannel⟩ := (Nat.div_mod_unique (channels_count_pos j.par.ch)).mpr
    ⟨show c + j.par.ch.count * k = k * j.par.ch.count + c by ring, hc⟩
  rw [Job.dataByte, if_pos hw, hslot, hbyte, hpixel, hchannel]

/-- A slot whose two bytes are the data bytes of pixel `k`, channel `c` is the normalized sample. -/
theorem Job.slotAt_eq_sample16 {j : Job} (hw : j.par.wide = true) {s t : State} {row k c : Nat} {a : Addr}
    (hc : c < j.par.ch.count)
    (h : ∀ b < 2, t.byteAt (a + BitVec.ofNat 64 b) = j.dataByte s row (2 * (k * j.par.ch.count + c) + b)) :
    t.slotAt a = j.sample16 s row k c := by
  have hbyte : ∀ b < 2, t.byteAt (a + BitVec.ofNat 64 b) = (j.sample16 s row k c).extractLsb' (8 * b) 8 :=
    fun b hb => (h b hb).trans (Job.dataByte_wide hw s row k hc hb)
  refine State.slotAt_of_bytes ?_ (hbyte 1 one_lt_two)
  rw [← hbyte 0 two_pos, BitVec.add_zero]

/-- The slot of pixel `k`, channel `c` in the destination row of a ROW command that overlaps nothing. -/
theorem rowJob_complete_slot {p : Params} (hw : p.wide = true) {s : State} (h : s.NoOverlap p 1) {k c : Nat}
    (hk : k < s.regs.width.toNat) (hc : c < p.ch.count) :
    ((rowJob p s).complete id s).slotAt (s.regs.dst + BitVec.ofNat 64 (2 * (k * p.ch.count + c))) =
      norm p.bits p.swap (s.slotAt (s.regs.src c + BitVec.ofNat 64 (2 * k))) := by
  refine Job.slotAt_eq_sample16 (j := rowJob p s) hw (row := 0) hc fun b hb => ?_
  have hindex := sample_index_lt hk hc
  rw [BitVec.add_assoc, ← BitVec.ofNat_add]
  refine rowJob_complete_data h ?_
  rw [s.rowBytes_wide hw, Nat.mul_assoc]
  omega

/-- Settles O14: the command completes; slot `k*ch + c` is the normalized sample of channel `c` of pixel `k`, and the rest
of the padded row is pad. -/
theorem row16InterleavesNormalizedSamples : Obligations.Row16InterleavesNormalizedSamples := by
  rintro s ch bits swap p rfl h8 h16 hwindow haccepted hapart
  have hlegal : Params.legal ⟨ch, true, bits, swap⟩ = true := decide_eq_true ⟨h8, h16⟩
  have hbytes := s.rowBytes_wide (p := ⟨ch, true, bits, swap⟩) rfl
  have hstride : s.rowStride ⟨ch, true, bits, swap⟩ = roundUp (2 * s.regs.width.toNat * ch.count) s.platform.vw := by
    rw [State.rowStride, hbytes]
  rw [exec_row16, rowCommand_completes hlegal hwindow haccepted, ← hstride, ← hbytes]
  refine ⟨_, rfl, fun k hk c hc => rowJob_complete_slot rfl hapart hk hc, fun o => rowJob_complete_pad,
    fun a => rowJob_complete_outside, rfl, ?_, rfl, rfl, rfl⟩
  rw [Job.complete_draws, rowJob_total_eq_rowStride]

/-! ### The round trip -/

/-- A sample in range is the top bits of its normalized slot, read in the byte order of `swap`. -/
theorem norm_ushiftRight_of_inRange {bits : Nat} (swap : Bool) {v : Slot} (h8 : 8 ≤ bits) (h16 : bits ≤ 16)
    (hv : v.toNat < 2 ^ bits) :
    (if swap then bswap16 (norm bits swap v) else norm bits swap v) >>> (16 - bits) = v := by
  cases swap with
  | false => exact norm_false_ushiftRight h16 hv h8
  | true => exact bswap16_norm_true_ushiftRight h8 h16 hv

/-- Settles O17: each slot stored is the `NORM` of its source slot, which R116 and R117 undo. -/
theorem row16SamplesAreRecoverable : Obligations.Row16SamplesAreRecoverable := by
  intro s ch bits swap p hp h8 h16 hwindow haccepted hapart
  obtain ⟨t, hexec, hslot, -⟩ := row16InterleavesNormalizedSamples s ch bits swap p hp h8 h16 hwindow haccepted hapart
  refine ⟨t, hexec, fun k hk c hc v o hv ho => ?_⟩
  obtain rfl : o = norm bits swap v := by rw [ho, hslot k hk c hc, hv]
  refine ⟨fun hrange => (norm_ushiftRight_of_inRange swap h8 h16 hrange).symm, ?_⟩
  rintro rfl
  exact (rotl16_norm_true v h8 h16).symm

end Sys2Proof.Machine
end

section
/-! PROOFS. The Plane Transform Driver (`43_plane_driver.md`): the capacity check (R172), the buffer and its rows (R176,
R177), the images of no bytes (R179), the transformed rows (R170), and each of them as a ROW command (R173). -/

namespace Sys2Proof.Machine

/-! ### The capacity check -/

/-- The write set of an XFORM is `HEIGHT` padded rows. -/
theorem State.total_xform {i : Instr} (hd : (commandParams i).2 = true) (s : State) :
    s.total i = s.rowStride (commandParams i).1 * s.regs.height.toNat := by
  rw [State.total, State.rows, if_pos hd]

/-- AllocationFailure is raised by the capacity check alone. -/
theorem lacksCapacity_of_status {i : Instr} {s t : State} (h : exec i s = .next t) (ht : t.regs.status = 0x21) :
    lacksCapacity i s := by
  by_contra hc
  cases hw : i.wf with
  | false =>
    cases (exec_of_not_wf hw s).symm.trans h
    exact absurd ht (by decide : statusWord .illegalCommand ≠ 0x21)
  | true =>
    rw [exec_of_not_lacksCapacity hw hc] at h
    rcases (commandWork i s).run_cases (commandUpd i s) s with ⟨-, h'⟩ | ⟨-, -, h'⟩ | ⟨-, -, h'⟩
    · cases h'.symm.trans h
    · cases h'.symm.trans h
      exact absurd ht (by decide : statusWord .busFault ≠ 0x21)
    · cases h'.symm.trans h
      exact absurd ht (by decide : statusWord .none ≠ 0x21)

/-- Settles O21: the check compares the total, a natural number, with `DCAP` before any access. -/
theorem allocationFailureExactlyWhenTotalExceedsDcap : Obligations.AllocationFailureExactlyWhenTotalExceedsDcap := by
  refine ⟨fun s i hd hwf hlt => ?_, fun s t i _ hle h ht => ?_, fun s t i hd h ht => ?_⟩
  · rw [State.total_eq] at hlt
    exact exec_of_lacksCapacity hwf ⟨hd, hlt⟩
  · exact (lacksCapacity_iff i s).mp (lacksCapacity_of_status h ht) fun _ => hle
  · obtain ⟨hd', -⟩ := lacksCapacity_of_status h ht
    cases hd.symm.trans hd'

/-! ### The destination buffer -/

/-- A command that lacks capacity changes no byte. -/
theorem exec_byteAt_of_lacksCapacity {i : Instr} {s t : State} (hc : lacksCapacity i s) (h : exec i s = .next t)
    (a : Addr) : t.byteAt a = s.byteAt a := by
  rcases exec_next h with rfl | rfl | ⟨hc', -⟩ | ⟨hc', -⟩
  · rfl
  · rfl
  · exact absurd hc hc'
  · exact absurd hc hc'

/-- Settles O23: past the capacity check the write set is within the `DCAP` bytes, and short of it nothing is written. -/
theorem xformStaysInDeclaredBuffer : Obligations.XformStaysInDeclaredBuffer := by
  intro i s t hd h a ha
  by_cases hc : lacksCapacity i s
  · exact exec_byteAt_of_lacksCapacity hc h a
  · refine exec_byteAt_outside h a ?_
    rintro ⟨n, hn, rfl⟩
    rw [State.total_eq] at hn
    exact ha n (hn.trans_le (commandWork_total_le_dcap hd hc)) rfl

/-- Settles O20: an XFORM writes `STATUS` and its result registers, these on success only, and no command changes a byte
outside its write set. -/
theorem xformFrame : Obligations.XformFrame := by
  intro i s t hd h
  obtain ⟨-, hout⟩ := outputRegistersWrittenBySuccessfulXform i s t h
  refine ⟨?_, fun hs => hout (.inr hs), fun a ha => exec_byteAt_outside h a ?_, exec_host h, exec_readData h,
    exec_platform h⟩
  · rcases exec_regs h with ⟨e, -, hr⟩ | ⟨-, hr⟩ <;> rw [hr]
    · rfl
    · rw [commandUpd_xform hd]
      rfl
  · rintro ⟨n, hn, rfl⟩
    rw [State.total_xform hd] at hn
    exact ha n hn rfl

/-- Two offsets below `2 ^ 64` give one byte of the destination only if they are equal. -/
theorem State.destByte_inj (s : State) {m n : Nat} (hm : m < 2 ^ 64) (hn : n < 2 ^ 64) (h : s.destByte m = s.destByte n) :
    m = n := by
  rw [← addrOffset_add s.regs.dst hm, ← addrOffset_add s.regs.dst hn]
  exact congrArg _ h

/-- Dividing an offset of the destination by the stride gives its row. -/
theorem row_offset_div (row : Nat) {o stride : Nat} (ho : o < stride) : (row * stride + o) / stride = row := by
  rw [Nat.add_comm, Nat.add_mul_div_right _ _ (Nat.zero_lt_of_lt ho), Nat.div_eq_of_lt ho, Nat.zero_add]

/-- Settles O24: the offsets of two rows differ, and past the capacity check none of them reaches `2 ^ 64`. -/
theorem destinationRowsAreDisjoint : Obligations.DestinationRowsAreDisjoint := by
  intro s i hd hcap row hrow row' hrow' hne o ho o' ho' heq
  have htotal : s.regs.height.toNat * s.rowStride (commandParams i).1 < 2 ^ 64 := by
    rw [Nat.mul_comm, ← State.total_xform hd]
    exact (hcap hd).trans_lt (BitVec.isLt _)
  have hoffset := s.destByte_inj ((sample_index_lt hrow ho).trans htotal) ((sample_index_lt hrow' ho').trans htotal) heq
  rw [← row_offset_div row ho, ← row_offset_div row' ho', hoffset] at hne
  exact hne rfl

/-! ### The registers of a completed XFORM -/

/-- The stride and the total an XFORM writes when it completes (R178). -/
theorem xform_complete_regs {i : Instr} (hd : (commandParams i).2 = true) (s : State) :
    (commandUpd i s s.regs).endWith .none =
      { s.regs with
        status := 0x01, dstride := BitVec.ofNat 64 (s.rowStride (commandParams i).1),
        dbytes := BitVec.ofNat 64 (s.rowStride (commandParams i).1 * s.regs.height.toNat) } := by
  rw [commandUpd_xform hd, commandWork_stride, ← State.total_eq, State.total_xform hd]
  rfl

/-! ### Images of no bytes -/

/-- An XFORM of no bytes that can run draws nothing and stores nothing. -/
theorem exec_xform_of_total_zero {i : Instr} {s : State} (hd : (commandParams i).2 = true) (hrun : s.Runnable i)
    (h0 : s.total i = 0) :
    exec i s = .next { s with regs := { s.regs with
      status := 0x01, dstride := BitVec.ofNat 64 (s.rowStride (commandParams i).1), dbytes := 0 } } := by
  have hregs := xform_complete_regs hd s
  rw [← State.total_xform hd, h0] at hregs
  rw [exec_runnable hrun, Job.complete, ← State.total_eq, h0, hregs]
  rfl

/-- Settles O22: with no row or no pixel both access sets are empty, so no capacity is needed and the platform has nothing
to refuse. -/
theorem emptyImageTouchesNoMemory : Obligations.EmptyImageTouchesNoMemory := by
  intro s i hd hwf
  refine ⟨fun hh => ?_, fun hw => ?_⟩
  · have hrows : s.rows i = 0 := by rw [State.rows, if_pos hd, hh]; rfl
    have htotal : s.total i = 0 := by rw [State.total, hrows, Nat.mul_zero]
    refine exec_xform_of_total_zero hd ⟨hwf, fun _ => htotal.trans_le (Nat.zero_le _), ?_, ?_⟩ htotal
    · simp [State.OffWindow, hrows]
    · simp [State.Accepted, hrows]
  · have hread := State.planeRowBytes_of_width_zero hw (commandParams i).1
    have hwrite := State.rowStride_of_width_zero hw (commandParams i).1
    have htotal : s.total i = 0 := by rw [State.total, hwrite, Nat.zero_mul]
    have hrun : s.Runnable i := by
      refine ⟨hwf, fun _ => htotal.trans_le (Nat.zero_le _), ?_, ?_⟩
      · simp [State.OffWindow, hread, hwrite]
      · simp [State.Accepted, hread, hwrite]
    have hexec := exec_xform_of_total_zero hd hrun htotal
    rwa [hwrite] at hexec

/-! ### The bytes of a completed XFORM -/

/-- Each row lies within the image. -/
theorem State.rowOffset_lt {s : State} {p : Params} {rows row : Nat} (hrow : row < rows) {n : Nat}
    (hn : n < s.rowStride p) : s.rowStride p * row + n < s.rowStride p * rows := by
  have := sample_index_lt hrow hn
  rwa [Nat.mul_comm row, Nat.mul_comm rows] at this

/-- A pad byte of row `row` of a runnable command. -/
theorem exec_padByte {i : Instr} {s : State} (h : s.Runnable i) {row o : Nat} (hr : row < s.rows i)
    (hle : s.rowBytes (commandParams i).1 ≤ o) (ho : o < s.rowStride (commandParams i).1) :
    ((commandWork i s).complete (commandUpd i s) s).byteAt (s.destByte (s.rowStride (commandParams i).1 * row + o)) =
      Config.freeByte (s.draws + (s.rowStride (commandParams i).1 * row + o)) := by
  obtain ⟨-, hcap, -, -⟩ := h
  have hc : ¬ lacksCapacity i s := fun hc => (lacksCapacity_iff i s).mp hc hcap
  have hlt : s.rowStride (commandParams i).1 * row + o < (commandWork i s).total := by
    rw [← State.total_eq]
    exact State.rowOffset_lt hr ho
  have hmod : (s.rowStride (commandParams i).1 * row + o) % (commandWork i s).stride = o := by
    rw [commandWork_stride, Nat.mul_add_mod, Nat.mod_eq_of_lt ho]
  have hat := (commandWork i s).byteAt_complete_at (commandUpd i s) s (commandWork_total_le hc) hlt
  rw [commandWork_dst] at hat
  exact hat.trans (Job.outByte_pad s (by rwa [hmod, commandWork_rowBytes]))

/-- What R170, R174, R178 and `20_memory.md` R55 say of an XFORM of either sample width: it completes, each row holds its
data bytes and then free bytes, and nothing changes but the write set, the result registers, `STATUS` and the draws. -/
theorem xform_transforms_rows {i : Instr} {s : State} (hd : (commandParams i).2 = true) (hrun : s.Runnable i)
    (hapart : s.NoOverlap (commandParams i).1 (s.rows i)) {rows stride : Nat} (hrows : rows = s.regs.height.toNat)
    (hstride : stride = s.rowStride (commandParams i).1) :
    ∃ t, exec i s = .next t ∧
      (∀ row < rows, ∀ o < s.rowBytes (commandParams i).1,
        t.byteAt (s.regs.dst + BitVec.ofNat 64 (row * stride + o)) = (commandWork i s).dataByte s row o) ∧
      (∀ row < rows, ∀ o, s.rowBytes (commandParams i).1 ≤ o → o < stride →
        t.byteAt (s.regs.dst + BitVec.ofNat 64 (row * stride + o)) = Config.freeByte (s.draws + (row * stride + o))) ∧
      (∀ a, (∀ n < stride * rows, a ≠ s.regs.dst + BitVec.ofNat 64 n) → t.byteAt a = s.byteAt a) ∧
      t.regs = { s.regs with
        status := 0x01, dstride := BitVec.ofNat 64 stride, dbytes := BitVec.ofNat 64 (stride * rows) } ∧
      t.draws = s.draws + stride * rows ∧ t.host = s.host ∧ t.readData = s.readData ∧ t.platform = s.platform := by
  have hrows' : rows = s.rows i := by rw [hrows, State.rows, if_pos hd]
  have htotal : s.total i = stride * rows := by rw [State.total_xform hd, hstride, hrows]
  have hexec := exec_runnable hrun
  refine ⟨_, hexec, fun row hr o ho => ?_, fun row hr o hle ho => ?_, fun a ha => exec_byteAt_outside hexec a ?_, ?_, ?_,
    rfl, rfl, rfl⟩
  · rw [Nat.mul_comm row, hstride]
    exact exec_dataByte hrun hapart (hrows' ▸ hr) ho
  · rw [Nat.mul_comm row, hstride]
    exact exec_padByte hrun (hrows' ▸ hr) hle (hstride ▸ ho)
  · rintro ⟨n, hn, rfl⟩
    exact ha n (htotal ▸ hn) rfl
  · rw [hstride, hrows]
    exact xform_complete_regs hd s
  · rw [Job.complete_draws, ← State.total_eq, htotal]

/-- Settles O18: data byte `k*ch + c` of a row is the sample of channel `c` of pixel `k` of that row. -/
theorem xform8TransformsEveryRow : Obligations.Xform8TransformsEveryRow := by
  rintro s ch swap p rows stride rfl rfl rfl hcap hwindow haccepted hapart
  have hbytes := s.rowBytes_narrow ch 8 swap
  obtain ⟨t, hexec, hdata, hrest⟩ := xform_transforms_rows (i := .xform8 ch swap) rfl
    ⟨rfl, fun _ => hcap, hwindow, haccepted⟩ hapart rfl rfl
  rw [show (commandParams (.xform8 ch swap)).1 = ⟨ch, false, 8, swap⟩ from rfl, hbytes] at hdata hrest
  refine ⟨t, hexec, fun row hrow k hk c hc => ?_, hrest⟩
  exact (hdata row hrow _ (sample_index_lt hk hc)).trans (Job.dataByte_narrow rfl s row k hc)

/-- Settles O19: slot `k*ch + c` of a row is the normalized sample of channel `c` of pixel `k` of that row. -/
theorem xform16TransformsEveryRow : Obligations.Xform16TransformsEveryRow := by
  rintro s ch bits swap p rows stride rfl h8 h16 rfl rfl hcap hwindow haccepted hapart
  obtain ⟨t, hexec, hdata, hrest⟩ := xform_transforms_rows (i := .xform16 ch bits swap) rfl
    ⟨decide_eq_true ⟨h8, h16⟩, fun _ => hcap, hwindow, haccepted⟩ hapart rfl rfl
  refine ⟨t, hexec, fun row hrow k hk c hc => ?_, hrest⟩
  refine Job.slotAt_eq_sample16 (j := commandWork (.xform16 ch bits swap) s) rfl (row := row) hc fun b hb => ?_
  have hindex := sample_index_lt hk hc
  rw [BitVec.add_assoc, ← BitVec.ofNat_add, Nat.add_assoc]
  refine hdata row hrow _ ?_
  rw [s.rowBytes_wide rfl, Nat.mul_assoc]
  change 2 * (k * ch.count + c) + b < 2 * (s.regs.width.toNat * ch.count)
  omega

/-! ### Each row as a ROW command -/

/-- The state from which a ROW command does row `row` of an XFORM of the given stride. -/
def State.atRow (s : State) (stride row : Nat) : State := { s with regs := s.regs.atRow stride row }

section AtRow
variable (s : State) (stride row : Nat)

theorem Regs.src_atRow (r : Regs) (c : Nat) :
    (r.atRow stride row).src c = r.src c + BitVec.ofNat 64 row * r.sstride c := by
  match c with
  | 0 | 1 | 2 | _ + 3 => rfl

/-- Row 0 of a plane there is row `row` of the plane here. -/
theorem State.planeByte_atRow (c k : Nat) : (s.atRow stride row).planeByte 0 c k = s.planeByte row c k := by
  have hsrc := Regs.src_atRow stride row s.regs c
  simp only [State.planeByte, State.atRow, hsrc]
  simp

/-- The destination there starts with row `row` of the destination here. -/
theorem State.destByte_atRow (n : Nat) : (s.atRow stride row).destByte n = s.destByte (stride * row + n) := by
  rw [State.destByte, State.destByte, BitVec.ofNat_add, ← BitVec.add_assoc]
  rfl

/-- The one row of the ROW command has the data bytes of row `row`. -/
theorem rowJob_dataByte_atRow (p : Params) (o : Nat) :
    (rowJob p (s.atRow stride row)).dataByte (s.atRow stride row) 0 o = (xformJob p s).dataByte s row o := by
  have hsrc : ∀ c, (rowJob p (s.atRow stride row)).src 0 c = (xformJob p s).src row c :=
    Regs.src_atRow stride row s.regs
  simp only [Job.dataByte, Job.sample8, Job.sample16, hsrc]
  rfl

end AtRow

section RowOfImage
variable {s : State} {p : Params} {rows row : Nat}

/-- What holds of every address that the rows access holds of those that the ROW command accesses. `Accepted` and
`OffWindow` have this form. -/
theorem State.forall_access_atRow {P : Addr → Prop}
    (h : (∀ row < rows, ∀ c < p.ch.count, ∀ k < s.planeRowBytes p, P (s.planeByte row c k)) ∧
      ∀ n < s.rowStride p * rows, P (s.destByte n)) (hrow : row < rows) :
    (∀ r < 1, ∀ c < p.ch.count, ∀ k < (s.atRow (s.rowStride p) row).planeRowBytes p,
      P ((s.atRow (s.rowStride p) row).planeByte r c k)) ∧
    ∀ n < (s.atRow (s.rowStride p) row).rowStride p * 1, P ((s.atRow (s.rowStride p) row).destByte n) := by
  obtain ⟨hread, hwrite⟩ := h
  refine ⟨fun r hr c hc k hk => ?_, fun n hn => ?_⟩
  · obtain rfl := Nat.lt_one_iff.mp hr
    rw [State.planeByte_atRow]
    exact hread row hrow c hc k hk
  · rw [State.destByte_atRow]
    exact hwrite _ (State.rowOffset_lt hrow (by rwa [Nat.mul_one] at hn))

/-- A row of an image that overlaps nothing overlaps nothing. -/
theorem State.NoOverlap.atRow (h : s.NoOverlap p rows) (hrow : row < rows) :
    (s.atRow (s.rowStride p) row).NoOverlap p 1 := by
  intro r hr c hc k hk n hn
  obtain rfl := Nat.lt_one_iff.mp hr
  rw [State.planeByte_atRow, State.destByte_atRow]
  exact h row hrow c hc k hk _ (State.rowOffset_lt hrow (by rwa [Nat.mul_one] at hn))

end RowOfImage

/-- R173 for one row: the ROW command with an XFORM's parameters completes and stores the data bytes of that row. -/
theorem row_exec_atRow {r : Instr} {p : Params} (hr : commandParams r = (p, false)) {s : State} {rows row : Nat}
    (hl : p.legal = true) (hw : s.OffWindow p rows) (ha : s.Accepted p rows) (hn : s.NoOverlap p rows)
    (hrow : row < rows) :
    ∃ u, exec r (s.atRow (s.rowStride p) row) = .next u ∧
      ∀ o < s.rowBytes p, u.byteAt (s.destByte (s.rowStride p * row + o)) = (xformJob p s).dataByte s row o := by
  have hexec : exec r (s.atRow (s.rowStride p) row) = rowCommand p (s.atRow (s.rowStride p) row) := by
    rw [exec_eq, hr]
    rfl
  rw [hexec, rowCommand_completes hl (State.forall_access_atRow (P := (s.platform.inWindow · = false)) hw hrow)
    (State.forall_access_atRow (P := (s.platform.memOK · = true)) ha hrow)]
  refine ⟨_, rfl, fun o ho => ?_⟩
  rw [← State.destByte_atRow, ← rowJob_dataByte_atRow s (s.rowStride p)]
  exact rowJob_complete_data (hn.atRow hrow) ho

/-- R173 for an XFORM and a ROW command with its parameters. -/
theorem xform_rows_eq_row {x r : Instr} {p : Params} (hx : commandParams x = (p, true))
    (hr : commandParams r = (p, false)) {s : State} (hrun : s.Runnable x) (hapart : s.NoOverlap p (s.rows x)) :
    ∃ t, exec x s = .next t ∧
      ∀ row < s.regs.height.toNat,
        ∃ u, exec r (s.atRow (s.rowStride p) row) = .next u ∧
          ∀ o < s.rowBytes p,
            t.byteAt (s.destByte (s.rowStride p * row + o)) = u.byteAt (s.destByte (s.rowStride p * row + o)) := by
  have hp : (commandParams x).1 = p := by rw [hx]
  have hwork : commandWork x s = xformJob p s := by rw [commandWork, hx]; rfl
  have hrows : s.rows x = s.regs.height.toNat := by rw [State.rows, hx]; rfl
  refine ⟨_, exec_runnable hrun, fun row hrow => ?_⟩
  have hdata := fun o => exec_dataByte hrun (hp ▸ hapart) (hrows ▸ hrow) (o := o)
  obtain ⟨hwf, -, hw, ha⟩ := hrun
  rw [← legal_commandParams] at hwf
  rw [hp] at hdata hwf hw ha
  obtain ⟨u, hexec, hu⟩ := row_exec_atRow hr hwf hw ha hapart (hrows ▸ hrow)
  refine ⟨u, hexec, fun o ho => ?_⟩
  rw [hdata o ho, hwork, hu o ho]

/-- Settles O25: the two commands carry the same parameters, and both rows hold the same data bytes. -/
theorem xformDoesEachRowAsRowCommand : Obligations.XformDoesEachRowAsRowCommand := by
  rintro s ch bits swap x r (⟨rfl, rfl⟩ | ⟨rfl, rfl⟩) hrun hapart
  · exact xform_rows_eq_row rfl (commandParams_row8 ch swap) hrun hapart
  · exact xform_rows_eq_row rfl (commandParams_row16 ch bits swap) hrun hapart

end Sys2Proof.Machine
end

section
/-! PROOFS. The register accesses (`44_register_access.md`): what a host write stores (R190), what a host read returns
(R191), and the `STATUS` words a command ends with (R192, `10_state.md` R29). -/

namespace Sys2Proof.Machine

/-! ### The `STATUS` word -/

theorem statusWord_cases (e : Ending) :
    statusWord e = 0x01 ∨ statusWord e = 0x11 ∨ statusWord e = 0x21 ∨ statusWord e = 0x31 := by
  cases e <;> decide

@[simp] theorem statusDone_statusWord (e : Ending) : statusDone (statusWord e) = true := by cases e <;> rfl

@[simp] theorem statusReserved_statusWord (e : Ending) : statusReserved (statusWord e) = 0 := by cases e <;> rfl

@[simp] theorem statusErr_statusWord (e : Ending) : statusErr (statusWord e) = e.code := by cases e <;> rfl

theorem Ending.code_toNat_le (e : Ending) : e.code.toNat ≤ 3 := by cases e <;> decide

/-- A word that ends, legal or not, leaves the `STATUS` word of its ending. -/
theorem execute_status {cmd : CmdWord} {s t : State} (h : execute cmd s = .next t) :
    ∃ e, t.regs.status = statusWord e := by
  rcases execute_cases cmd s with ⟨i, h'⟩ | h' <;> rw [h'] at h
  · rcases exec_regs h with ⟨e, -, hr⟩ | ⟨-, hr⟩ <;> rw [hr]
    · exact ⟨e, rfl⟩
    · exact ⟨.none, rfl⟩
  · cases h
    exact ⟨.illegalCommand, rfl⟩

/-- Settles O30: `STATUS` is the word of one of the four endings, whose fields are `DONE` and the code. -/
theorem commandEndsInOneOfFourWays : Obligations.CommandEndsInOneOfFourWays := by
  intro cmd s t h
  obtain ⟨e, he⟩ := execute_status h
  rw [he, statusErr_statusWord]
  exact ⟨statusWord_cases e, statusDone_statusWord e, statusReserved_statusWord e, e.code_toNat_le⟩

/-! ### Host writes -/

section Write
variable (r : Regs) (v : BitVec 64) {i j : Reg}

/-- What a register reads after a write: a write to another register does not reach it. -/
theorem Regs.read_write (i j : Reg) : (r.write i v).read j = if j = i then (r.write i v).read i else r.read j := by
  cases i <;> cases j <;> rfl

theorem Regs.read_write_of_ne (h : j ≠ i) : (r.write i v).read j = r.read j := by
  rw [Regs.read_write, if_neg h]

/-- `SRC0` to `DCAP` take all 64 bits. -/
theorem Regs.read_write_self_of_lt (h : i.index < 10) : (r.write i v).read i = v := by
  cases i with
  | width | height | cmd | status | dstride | dbytes => exact absurd h (by decide)
  | _ => rfl

/-- The low 32 bits of a value, as a zero-extended register reads. -/
theorem toNat_low32_zeroExtended : ((v.setWidth 32).setWidth 64).toNat = v.toNat % 2 ^ 32 := by
  rw [BitVec.toNat_setWidth_of_le (by decide), BitVec.toNat_setWidth]

/-- `WIDTH` and `HEIGHT` take the low 32 bits. -/
theorem Regs.read_write_self_toNat (h : i.index = 10 ∨ i.index = 11) :
    ((r.write i v).read i).toNat = v.toNat % 2 ^ 32 := by
  cases i with
  | width | height => exact toNat_low32_zeroExtended v
  | _ => exact absurd h (by decide)

/-- The read-only registers take nothing. -/
theorem Regs.write_readOnly (h : 12 < i.index) : r.write i v = r := by
  cases i with
  | status | dstride | dbytes => rfl
  | _ => exact absurd h (by decide)

end Write

/-- Settles O39: the step is `regWrite` with the access taken, and a write stores what its register takes and touches the
register file only. -/
theorem regWriteStoresByWidth : Obligations.RegWriteStoresByWidth := by
  refine ⟨fun s rest i v hhost => step_cons hhost, fun s i v hi => ?_, fun s v => regWrite_cmd v s⟩
  refine ⟨_, regWrite_of_ne_cmd hi v s, fun j hj => Regs.read_write_of_ne _ v hj, Regs.read_write_self_of_lt _ v,
    Regs.read_write_self_toNat _ v, fun h => ?_, rfl⟩
  exact congrArg (Regs.read · i) (Regs.write_readOnly s.regs v h)

/-! ### Host reads -/

/-- Settles O40: the step is `regRead` with the access taken, and the three 32-bit registers are zero-extended. -/
theorem regReadReturnsRegister : Obligations.RegReadReturnsRegister := by
  intro s rest i hhost
  refine ⟨regRead i { s with host := rest }, step_cons hhost, rfl, rfl, ?_⟩
  rw [regRead_readData]
  cases i with
  | width | height | status => exact (BitVec.ofNat_toNat _ _).symm
  | _ => rfl

end Sys2Proof.Machine
end

section
/-! PROOFS. The errors (`60_exceptions.md`): what an illegal word leaves (R201), when BusFault is raised and what it leaves
(R203), the order of the checks (R209), and the idle engine (R216). -/

namespace Sys2Proof.Machine

/-! ### Legality -/

/-- IllegalCommand writes its word to `STATUS`, R204. -/
theorem raise_illegalCommand (s : State) :
    raise .illegalCommand s = { s with regs := { s.regs with status := 0x11 } } := rfl

/-- Settles O27: the write executes the word, and executing an illegal word raises IllegalCommand. -/
theorem illegalCommandChangesOnlyStatus : Obligations.IllegalCommandChangesOnlyStatus := by
  refine ⟨fun s v rest hhost hillegal => ?_, fun cmd s hillegal => ?_⟩
  · calc step s = regWrite .cmd v { s with host := rest } := step_cons hhost
      _ = execute (v.setWidth 32) { s with host := rest } := regWrite_cmd _ _
      _ = .next (raise .illegalCommand { s with host := rest }) := execute_illegal hillegal _
  · have hlow : (cmd.setWidth 64).setWidth 32 = cmd := by simp
    rw [regWrite_cmd, hlow, execute_illegal hillegal, raise_illegalCommand]

/-- A decoded command is well formed. -/
theorem wf_of_decode {w : CmdWord} {i : Instr} (h : decode w = .ok i) : i.wf = true :=
  (encodeInvertsDecode w i h).1

/-! ### Capacity and memory accesses -/

theorem not_lacksCapacity_of_hasCapacity {i : Instr} {s : State} (h : s.HasCapacity i) : ¬ lacksCapacity i s :=
  fun hc => (lacksCapacity_iff i s).mp hc h

/-- Some byte of the command's access sets has `MemOK` false. -/
def State.RefusesAccess (s : State) (i : Instr) : Prop :=
  ∃ a, (s.InReadSet i a ∨ s.InWriteSet i a) ∧ s.platform.memOK a = false

/-- The last check of R209: a legal command with capacity that answers a next state faults when the platform refuses one
of its accesses, and completes otherwise. -/
theorem exec_next_of_hasCapacity {i : Instr} {s t : State} (hwf : i.wf = true) (hcap : s.HasCapacity i)
    (h : exec i s = .next t) :
    (s.RefusesAccess i ∧ t = raise .busFault ((commandWork i s).scribble s)) ∨
    (¬ s.RefusesAccess i ∧ t = (commandWork i s).complete (commandUpd i s) s) := by
  rw [exec_of_not_lacksCapacity hwf (not_lacksCapacity_of_hasCapacity hcap)] at h
  rw [State.RefusesAccess, ← commandWork_refused_iff, Bool.not_eq_true]
  rcases (commandWork i s).run_cases (commandUpd i s) s with ⟨-, hr⟩ | ⟨-, href, hr⟩ | ⟨-, href, hr⟩ <;>
    cases hr.symm.trans h
  · exact .inl ⟨href, rfl⟩
  · exact .inr ⟨href, rfl⟩

/-- Off the register window a legal command with capacity answers a next state. -/
theorem exec_next_of_offWindow {i : Instr} {s : State} (hwf : i.wf = true) (hcap : s.HasCapacity i)
    (hwin : s.OffWindow (commandParams i).1 (s.rows i)) : ∃ t, exec i s = .next t := by
  rw [exec_of_not_lacksCapacity hwf (not_lacksCapacity_of_hasCapacity hcap)]
  rcases (commandWork i s).run_cases (commandUpd i s) s with ⟨htouch, -⟩ | ⟨-, -, hr⟩ | ⟨-, -, hr⟩
  · cases htouch.symm.trans (commandWork_touchesWindow_false hwin)
  · exact ⟨_, hr⟩
  · exact ⟨_, hr⟩

/-- An abandoned command leaves the draw of its number in each accepted byte of the write set. -/
theorem commandWork_byteAt_scribble {i : Instr} {s : State} (hcap : s.HasCapacity i) {n : Nat} (hn : n < s.total i)
    (hok : s.platform.memOK (s.destByte n) = true) :
    ((commandWork i s).scribble s).byteAt (s.destByte n) = Config.freeByte (s.draws + n) := by
  have htotal := commandWork_total_le (not_lacksCapacity_of_hasCapacity hcap)
  rw [State.total_eq] at hn
  have hoffset : addrOffset s.regs.dst (s.destByte n) = n := addrOffset_add _ (hn.trans_le htotal)
  rw [Job.byteAt_scribble _ _ htotal, commandWork_dst, hoffset, if_pos ⟨hn, hok⟩]

/-- Settles O28: off the window the platform's answer decides between the fault and completion. What the fault leaves is
`scribble` on the write set, and outside it no command changes a byte. -/
theorem busFaultExactlyWhenAccessRefused : Obligations.BusFaultExactlyWhenAccessRefused := by
  intro i s hwf hcap hwin
  obtain ⟨t, h⟩ := exec_next_of_offWindow hwf hcap hwin
  have hout := exec_byteAt_outside h
  have hsrc := fun hapart => sourcesAreNeverWritten i s t hapart h
  refine ⟨t, h, ?_⟩
  rcases exec_next_of_hasCapacity hwf hcap h with ⟨href, rfl⟩ | ⟨href, rfl⟩
  · exact ⟨iff_of_true rfl href, fun _ => ⟨rfl, fun n => commandWork_byteAt_scribble hcap, hout, hsrc⟩⟩
  · have hne : statusWord .none ≠ 0x31 := by decide
    exact ⟨iff_of_false hne href, fun hs => absurd hs hne⟩

/-! ### The order of the checks -/

/-- Settles O29: an illegal word ends at the first check, a command without capacity at the second, and past these the
platform's answer decides. -/
theorem statusReportsFirstFailedCheck : Obligations.StatusReportsFirstFailedCheck := by
  intro cmd s t h
  refine ⟨fun hillegal => ?_, fun i hi => ?_⟩
  · cases (execute_illegal hillegal s).symm.trans h
    rfl
  · rw [execute_legal hi] at h
    have hwf := wf_of_decode hi
    refine ⟨fun hcap => ?_, fun hcap hrefused => ?_, fun hcap haccepted => ?_⟩
    · cases (exec_of_lacksCapacity hwf ((lacksCapacity_iff i s).mpr hcap)).symm.trans h
      rfl
    · rcases exec_next_of_hasCapacity hwf hcap h with ⟨-, rfl⟩ | ⟨hnot, -⟩
      · rfl
      · exact absurd hrefused hnot
    · rcases exec_next_of_hasCapacity hwf hcap h with ⟨⟨a, ha, hfalse⟩, -⟩ | ⟨-, rfl⟩
      · cases hfalse.symm.trans (haccepted a ha)
      · rfl

/-! ### The idle engine -/

/-- Settles O43: a step takes the next pending access, and there is none. -/
theorem idleEngineHoldsState : Obligations.IdleEngineHoldsState := fun _ => step_nil

end Sys2Proof.Machine
end

section
/-! PROOFS. Reset and hazards (`70_reset_and_hazards.md`): a reset during a command and the command after it (R230, R231),
and a command whose write set overlaps its read set (R238). -/

namespace Sys2Proof.Machine

/-! ### Reset during a command -/

/-- Abandoning a command changes no byte outside its write set. -/
theorem commandWork_byteAt_scribble_outside {i : Instr} {s : State} (hcap : s.HasCapacity i) {a : Addr}
    (ha : ¬ s.InWriteSet i a) : ((commandWork i s).scribble s).byteAt a = s.byteAt a := by
  refine Job.byteAt_scribble_outside _ s (commandWork_total_le (not_lacksCapacity_of_hasCapacity hcap)) ?_
  rintro n hn rfl
  exact ha ((commandWork_writes_iff i s _).mp ((Job.writeRange_contains_iff _ _).mpr ⟨n, hn, rfl⟩))

/-- A word that accesses no memory leaves nothing to cut short. -/
theorem resetDuring_of_no_access {cmd : CmdWord} {s : State} (h : ∀ i, decode cmd = .ok i → ¬ s.HasCapacity i) :
    resetDuring cmd s = .next (resetInput s) := by
  have hnone : commandJob cmd s = none := by
    by_cases hlegal : ∃ i, decode cmd = .ok i
    · obtain ⟨i, hi⟩ := hlegal
      exact commandJob_lacksCapacity hi (h i hi)
    · exact commandJob_illegal (not_exists.mp hlegal) s
  rw [resetDuring, hnone]

section Abandoned
variable {cmd : CmdWord} {i : Instr} {s : State} (hd : decode cmd = .ok i) (hcap : s.HasCapacity i)
include hd hcap

/-- Off the register window the command is abandoned and the registers are reset. -/
theorem resetDuring_offWindow (hwin : s.OffWindow (commandParams i).1 (s.rows i)) :
    resetDuring cmd s = .next (resetInput ((commandWork i s).scribble s)) := by
  simp [resetDuring, commandJob_eq hd hcap, commandWork_touchesWindow_false hwin]

theorem resetDuring_touchesWindow (h : (commandWork i s).touchesWindow s.platform = true) :
    resetDuring cmd s = .refused .registerWindowTouched := by
  simp [resetDuring, commandJob_eq hd hcap, h]

end Abandoned

/-- Settles O47: the step is `resetDuring` with the access taken. Its three cases are those of the word's memory work:
abandoned, none, or on the register window. -/
theorem resetDuringCommandAbandonsIt : Obligations.ResetDuringCommandAbandonsIt := by
  refine ⟨fun s cmd i rest hhost hd hcap hwin => ?_, fun s cmd rest hhost hnone => ?_,
    fun s cmd i rest hhost hd hcap htouch => ?_⟩
  · exact ⟨_, (step_cons hhost).trans (resetDuring_offWindow hd hcap hwin), rfl, rfl,
      fun n => commandWork_byteAt_scribble (s := { s with host := rest }) hcap,
      fun a => commandWork_byteAt_scribble_outside (s := { s with host := rest }) hcap⟩
  · exact (step_cons hhost).trans (resetDuring_of_no_access hnone)
  · exact (step_cons hhost).trans (resetDuring_touchesWindow hd hcap (commandWork_touchesWindow_iff.mpr htouch))

/-! ### A command straight after reset -/

/-- Settles O49: `0x088` is an XFORM, and with `WIDTH = 0` an XFORM completes on every platform and stores nothing. -/
theorem xformStraightAfterReset : Obligations.XformStraightAfterReset := by
  intro s hregs
  have hword : decodeTableWord 32 0x088 = some (.xform8 .gray false) := by decide
  have hwidth : s.regs.width = 0 := by rw [hregs]; rfl
  obtain ⟨-, hempty⟩ := emptyImageTouchesNoMemory s (.xform8 .gray false) rfl rfl
  rw [fetchedWordRunsNext s _ _ hword, hempty hwidth, hregs]
  rfl

/-! ### Overlap of the write set and the read set -/

/-- A data byte that is no source byte, and whose own sources are outside the write set, is stored even where the command
overlaps its sources (log 9). -/
theorem Job.outByte_of_independent {j : Job} (s : State) {row o : Nat} (ho : o < j.par.rowBytes j.width)
    (hstride : j.par.rowBytes j.width ≤ j.stride)
    (hsrc : ∀ a, (j.sourceRange row o).contains a = true → j.writeRange.contains a = false)
    (hdst : j.reads (j.dst + BitVec.ofNat 64 (j.stride * row + o)) = false) :
    j.outByte s (j.stride * row + o) = j.dataByte s row o := by
  obtain ⟨hdiv, hmod⟩ := (Nat.div_mod_unique (by omega)).mpr
    ⟨Nat.add_comm o (j.stride * row), ho.trans_le hstride⟩
  have hmeets : (j.sourceRange row o).meets j.writeRange = false := by
    rw [Bool.eq_false_iff, Ne, AddrRange.meets_iff]
    rintro ⟨a, ha, hw⟩
    cases hw.symm.trans (hsrc a ha)
  have hdetermined : j.determined (j.stride * row + o) = true := by
    rw [Job.determined, hdiv, hmod, hmeets, hdst, decide_eq_true ho]
    rfl
  rw [Job.outByte, if_pos hdetermined, hdiv, hmod]

section Independent
variable {i : Instr} {s : State} {row k c : Nat}

/-- Where a command finds the samples of a plane, in the caller's terms. -/
theorem commandWork_src_add (hrow : row < s.rows i) :
    (commandWork i s).src row c + BitVec.ofNat 64 k = s.planeByte row c k := by
  unfold commandWork State.planeByte
  cases hd : (commandParams i).2 with
  | true => rfl
  | false =>
    obtain rfl : row = 0 := by simpa [State.rows, hd] using hrow
    simp [rowJob]

/-- Data byte `o` of row `row` of a runnable command, if it is no source byte and none of its sources is in the write set. -/
theorem exec_dataByte_of_independent (h : s.Runnable i) (hrow : row < s.rows i) {o : Nat}
    (ho : o < s.rowBytes (commandParams i).1)
    (hsrc : ∀ a, ((commandWork i s).sourceRange row o).contains a = true → ¬ s.InWriteSet i a)
    (hdst : ¬ s.InReadSet i (s.destByte (s.rowStride (commandParams i).1 * row + o))) :
    ((commandWork i s).complete (commandUpd i s) s).byteAt (s.destByte (s.rowStride (commandParams i).1 * row + o)) =
      (commandWork i s).dataByte s row o := by
  obtain ⟨-, hcap, -, -⟩ := h
  have hle := s.rowBytes_le_rowStride (commandParams i).1
  have hlt : s.rowStride (commandParams i).1 * row + o < (commandWork i s).total := by
    rw [← State.total_eq]
    exact State.rowOffset_lt hrow (ho.trans_le hle)
  have hat := (commandWork i s).byteAt_complete_at (commandUpd i s) s
    (commandWork_total_le (not_lacksCapacity_of_hasCapacity hcap)) hlt
  rw [← commandWork_rowBytes] at ho hle
  rw [State.destByte, ← commandWork_dst i, ← commandWork_stride] at hdst ⊢
  rw [← commandWork_stride] at hle hat
  refine hat.trans (Job.outByte_of_independent s ho hle (fun a ha => ?_) ?_)
  · rw [Bool.eq_false_iff, Ne, commandWork_writes_iff]
    exact hsrc a ha
  · rw [Bool.eq_false_iff, Ne, commandWork_reads_iff]
    exact hdst

/-- The one source of a data byte in a row of 1-byte samples. -/
theorem Job.sourceRange_narrow {j : Job} (hn : j.par.wide = false) (hc : c < j.par.ch.count) :
    j.sourceRange row (k * j.par.ch.count + c) = ⟨j.src row c + BitVec.ofNat 64 k, 1⟩ := by
  obtain ⟨hdiv, hmod⟩ := (Nat.div_mod_unique (channels_count_pos j.par.ch)).mpr
    ⟨show c + j.par.ch.count * k = k * j.par.ch.count + c by ring, hc⟩
  rw [Job.sourceRange, hn, if_neg Bool.false_ne_true, hdiv, hmod]

/-- The two sources of either byte of a slot in a row of 2-byte samples. -/
theorem Job.sourceRange_wide {j : Job} (hw : j.par.wide = true) (hc : c < j.par.ch.count) {b : Nat} (hb : b < 2) :
    j.sourceRange row (2 * (k * j.par.ch.count + c) + b) = ⟨j.src row c + BitVec.ofNat 64 (2 * k), 2⟩ := by
  have hslot : (2 * (k * j.par.ch.count + c) + b) / 2 = k * j.par.ch.count + c := by omega
  obtain ⟨hpixel, hchannel⟩ := (Nat.div_mod_unique (channels_count_pos j.par.ch)).mpr
    ⟨show c + j.par.ch.count * k = k * j.par.ch.count + c by ring, hc⟩
  rw [Job.sourceRange, if_pos hw, hslot, hpixel, hchannel]

/-- A sample of a 1-byte plane that is apart from the overlap is copied. -/
theorem exec_sample_of_independent (h : s.Runnable i) (hn : (commandParams i).1.wide = false) (hrow : row < s.rows i)
    (hk : k < s.regs.width.toNat) (hc : c < (commandParams i).1.ch.count) {dst : Addr}
    (hd : dst = s.destByte (row * s.rowStride (commandParams i).1 + (k * (commandParams i).1.ch.count + c)))
    (hsrc : ¬ s.InWriteSet i (s.planeByte row c k)) (hdst : ¬ s.InReadSet i dst) :
    ((commandWork i s).complete (commandUpd i s) s).byteAt dst = s.byteAt (s.planeByte row c k) := by
  have ho : k * (commandParams i).1.ch.count + c < s.rowBytes (commandParams i).1 := by
    simpa [State.rowBytes, Params.sw, hn] using sample_index_lt hk hc
  rw [Nat.mul_comm row] at hd
  subst hd
  rw [← commandWork_par i s] at hn hc
  have hrange := Job.sourceRange_narrow (row := row) (k := k) hn hc
  have hdata := Job.dataByte_narrow hn s row k hc
  rw [commandWork_par, commandWork_src_add hrow] at hrange
  rw [Job.sample8, commandWork_par, commandWork_src_add hrow] at hdata
  refine (exec_dataByte_of_independent h hrow ho (fun a ha => ?_) hdst).trans hdata
  rw [hrange, AddrRange.contains_iff] at ha
  obtain ⟨n, hn1, rfl⟩ := ha
  obtain rfl : n = 0 := by simpa using hn1
  simpa using hsrc

/-- A sample of a 2-byte plane that is apart from the overlap is normalized. -/
theorem exec_slot_of_independent (h : s.Runnable i) (hw : (commandParams i).1.wide = true) (hrow : row < s.rows i)
    (hk : k < s.regs.width.toNat) (hc : c < (commandParams i).1.ch.count) {dst : Addr}
    (hd : dst = s.destByte (row * s.rowStride (commandParams i).1 + 2 * (k * (commandParams i).1.ch.count + c)))
    (hsrc : ∀ n < 2, ¬ s.InWriteSet i (s.planeByte row c (2 * k) + BitVec.ofNat 64 n))
    (hdst : ∀ b < 2, ¬ s.InReadSet i (dst + BitVec.ofNat 64 b)) :
    ((commandWork i s).complete (commandUpd i s) s).slotAt dst =
      norm (commandParams i).1.bits (commandParams i).1.swap (s.slotAt (s.planeByte row c (2 * k))) := by
  have hbytes := s.rowBytes_wide hw
  have hindex := sample_index_lt hk hc
  rw [← commandWork_par i s] at hw hc
  have hslot := Job.slotAt_eq_sample16 hw (s := s) (row := row) (k := k) (a := dst) hc
    (t := (commandWork i s).complete (commandUpd i s) s)
  rw [Job.sample16, commandWork_par, commandWork_src_add hrow] at hslot
  refine hslot fun b hb => ?_
  have hrange := Job.sourceRange_wide (row := row) (k := k) hw hc hb
  rw [commandWork_par, commandWork_src_add hrow] at hrange
  have hat : dst + BitVec.ofNat 64 b = s.destByte (s.rowStride (commandParams i).1 * row +
      (2 * (k * (commandParams i).1.ch.count + c) + b)) := by
    rw [hd, State.destByte, State.destByte, BitVec.add_assoc, ← BitVec.ofNat_add, Nat.add_assoc, Nat.mul_comm row]
  have hdst := hdst b hb
  rw [hat] at hdst ⊢
  refine exec_dataByte_of_independent h hrow ?_ (fun a ha => ?_) hdst
  · rw [hbytes, Nat.mul_assoc]
    omega
  · rw [hrange, AddrRange.contains_iff] at ha
    obtain ⟨n, hn, rfl⟩ := ha
    exact hsrc n hn

end Independent

/-- Settles O26: a runnable command completes whether or not it overlaps its sources, and a sample apart from the overlap is
stored as ever. -/
theorem overlappingCommandCompletes : Obligations.OverlappingCommandCompletes := by
  rintro i s p stride rfl rfl hrun
  have hexec := exec_runnable hrun
  refine ⟨_, hexec, rfl, exec_byteAt_outside hexec, ?_, ?_⟩
  · rintro hn row hrow k hk c hc src dst rfl hd hsrc hdst
    exact exec_sample_of_independent hrun hn hrow hk hc hd hsrc hdst
  · rintro hw row hrow k hk c hc src dst rfl hd hsrc hsrc' hdst hdst'
    refine exec_slot_of_independent hrun hw hrow hk hc hd (fun n hn => ?_) (fun b hb => ?_)
    · interval_cases n
      · simpa using hsrc
      · exact hsrc'
    · interval_cases b
      · simpa using hdst
      · exact hdst'

end Sys2Proof.Machine
end
